-- ==== Sys2Proof/Word.lean ====
section
/-! DEFINITION. The words of the machine (spec 00 R5, 10 R20, 20 R60, 30 R89). -/

namespace Sys2Proof

/-- A register, an operand, an address or an instruction: 32 bits (00 R5, 30 R80). -/
abbrev Word := BitVec 32

/-- The smallest addressable unit of memory (20 R60). -/
abbrev Byte := BitVec 8

/-- The number of a general register, as an instruction's 5-bit field names it (10 R20). -/
abbrev RegNum := BitVec 5

/-- A 16-bit immediate field, before extension (30 R89). -/
abbrev Imm16 := BitVec 16

end Sys2Proof
end

