-- ==== Sys2Proof/Machine/Bytes.lean ====
section
/-! DEFINITION. Byte order, decided once (20 R63, R64). -/

namespace Sys2Proof.Machine

/-- The number that bytes denote, the first byte the most significant one. -/
def joinBigEndian (bytes : List Byte) : Nat :=
  bytes.foldl (fun acc b => acc * 256 + b.toNat) 0

/-- The number that bytes from the lowest address upward denote: big-endian, or with the order reversed where
`big_endian` is false (20 R63). -/
def joinBytes (bigEndian : Bool) (bytes : List Byte) : Nat :=
  joinBigEndian (if bigEndian then bytes else bytes.reverse)

/-- The `n` low bytes of a number, the least significant first. -/
def littleEndianBytes : (n v : Nat) → List Byte
  | 0, _ => []
  | n + 1, v => BitVec.ofNat 8 v :: littleEndianBytes n (v / 256)

/-- The `n` bytes of a number as memory holds them from the lowest address upward (20 R64 `MemWrite`). -/
def splitBytes (bigEndian : Bool) (n v : Nat) : List Byte :=
  if bigEndian then (littleEndianBytes n v).reverse else littleEndianBytes n v

end Sys2Proof.Machine
end

