-- ==== Sys2Proof/Config.lean ====
section
/-! DEFINITION. What an implementation fixes, and what the spec leaves free: the parameters of 00 section 5 as plain
data, and the free values and open functions as constants without a body. The settings the machine has at reset are
in Machine/Defaults.lean. -/

namespace Sys2Proof

/-- `reserved_bits_policy`: what a word with reserved bits set does (30 R91). -/
inductive ReservedBits where
  /-- The word is refused (the spec's default). -/
  | refuse
  /-- The word executes as its row's instruction. -/
  | ignore
  deriving DecidableEq, Repr

/-- `xori_ext`: how `l.xori` extends its immediate (43 R166). -/
inductive XoriExt where
  /-- Sign extension, what the existing hardware does (the spec's default). -/
  | sign
  /-- Zero extension, what the page's text aspires to (43 R165). -/
  | zero
  deriving DecidableEq, Repr

/-- `mul_carry`: what "carry" means for the signed multiplies (43 R161). -/
inductive MulCarry where
  /-- The unsigned product of the same bit patterns does not fit in 32 bits (the spec's default). -/
  | ucarry
  /-- A free value. -/
  | draw
  deriving DecidableEq, Repr

/-- `picsr_write_one`: what writing 1 to a clear bit of PICSR does (60 R243). -/
inductive PicsrWriteOne where
  /-- The write is refused (the spec's default). -/
  | refuse
  /-- The bit is set. -/
  | set
  deriving DecidableEq, Repr

/-- `align_eear`: what the ALIGN exception records in EEAR0 (42 R143 (d), OPEN in the spec). -/
inductive AlignEear where
  /-- The misaligned target `x[B]` (the spec's default). -/
  | target
  /-- A free value. -/
  | draw
  deriving DecidableEq, Repr

/-- The parameters of 00 section 5 that an implementation or a platform fixes. They are arguments of the step, not
state that changes (00 R12); State carries them so that every claim holds for every setting. -/
structure Config where
  /-- `NGPR`: the number of general registers implemented (10 R20, 92 D4). State keeps 32; an instruction that names one
  that is not implemented is refused. -/
  numGprs : Nat
  /-- `r0_hardwired`: r0 ignores writes and reads zero (10 R22). -/
  r0Hardwired : Bool
  /-- `big_endian`: the byte order (20 R63). -/
  bigEndian : Bool
  /-- `pic_present`: UPR[PICP] (10 R34, 60 R240). -/
  picPresent : Bool
  /-- `upr_picp_bit`: the place of PICP in UPR, or none where it is not fixed (OPEN, 92 D28). No instruction can read UPR,
  so that the unknown place cannot enter a proof (10 R34): nothing in the model depends on it. -/
  uprPicpBit : Option (Fin 32)
  /-- `fpu_present`: `lf.madd.s` is implemented and FPCSR is held (10 R32, 44 R191). -/
  fpuPresent : Bool
  /-- `mac_present`: `l.maci`, MACHI and MACLO exist (00 section 5, 92 D24). -/
  macPresent : Bool
  /-- `companion_set`: the five instructions of 45 are admitted (45 R200). -/
  companionSet : Bool
  /-- `xori_ext` (43 R166). -/
  xoriExt : XoriExt
  /-- `mul_carry` (43 R161). -/
  mulCarry : MulCarry
  /-- `range_commits`: the result and the flags are written when the Range exception is raised (40 R105). -/
  rangeCommits : Bool
  /-- `reserved_bits_policy` (30 R91). -/
  reservedBits : ReservedBits
  /-- `pic_mask_before_latch`: PICMR gates what PICSR latches (60 R242). -/
  picMaskBeforeLatch : Bool
  /-- `picsr_write_one` (60 R243). -/
  picsrWriteOne : PicsrWriteOne
  /-- `trap_clears_ove`: trap entry clears SR.OVE (60 R224). -/
  trapClearsOve : Bool
  /-- `fp_epc_next`: a Floating Point exception records `pc + 4`, else `pc` (60 R226). -/
  fpEpcNext : Bool
  /-- `align_eear` (42 R143). -/
  alignEear : AlignEear
  /-- `vector_base` when SR.EPH = 0 (60 R222). -/
  vectorBaseLow : Word
  /-- `vector_base` when SR.EPH = 1 (60 R222). -/
  vectorBaseHigh : Word
  /-- Vector offset of ALIGN (60 R222). -/
  alignOffset : Word
  /-- Vector offset of ILLEGAL (60 R222). -/
  illegalOffset : Word
  /-- Vector offset of the Interrupt exception (60 R222). -/
  interruptOffset : Word
  /-- Vector offset of the Range exception (60 R222). -/
  rangeOffset : Word
  /-- Vector offset of the Floating Point exception (60 R222). -/
  floatingPointOffset : Word
  /-- `reset_pc` (10 R45). -/
  resetPc : Word
  /-- `reset_sr` (10 R45). -/
  resetSr : Word
  /-- `halt_addr`: the address at which a run ends, if any (70 R289). -/
  haltAddr : Option Word
  deriving DecidableEq, Repr

/-- The free value of `draw` (00 section 6.1): nothing is known of any of its values. The argument is the number of
values drawn before. Log entry 9. -/
opaque Config.draw : Nat → Word

/-- `irq`: the level of the 32 interrupt lines at each sampling, a free input under no law (60 R241). Log entry 8. -/
opaque Config.irq : Nat → Word

/-- The nine exception flags of FPCSR, OVF (bit 0 here, bit 3 of FPCSR) to DZF (bit 8 here, bit 11 of FPCSR)
(10 R32). -/
abbrev FpFlags := BitVec 9

/-- `fp_madd32`: the result and the flags of the single-precision `a * b + d` under a rounding mode, a total function
of its operands of which nothing else is known (44 R192). Log entry 23. -/
opaque Config.fpMadd32 : (a b d : Word) → (rm : BitVec 2) → Word × FpFlags

end Sys2Proof
end

