-- ==== Sys2Proof/Machine/Defaults.lean ====
section
/-! DEFINITION. The settings of the parameters: the spec's defaults (00 section 5), and those of the machine right after
reset. -/

namespace Sys2Proof.Machine

/-- The defaults of 00 section 5, every one as its table shows it. A parameter that the table leaves OPEN without a
default is none. -/
def defaultConfig : Config where
  numGprs := 32
  r0Hardwired := false
  bigEndian := true
  picPresent := true
  uprPicpBit := none
  fpuPresent := false
  macPresent := true
  companionSet := true
  xoriExt := .sign
  mulCarry := .ucarry
  rangeCommits := true
  reservedBits := .refuse
  picMaskBeforeLatch := true
  picsrWriteOne := .refuse
  trapClearsOve := true
  fpEpcNext := true
  alignEear := .target
  vectorBaseLow := 0x00000000
  vectorBaseHigh := 0xF0000000
  alignOffset := 0x600
  illegalOffset := 0x700
  interruptOffset := 0x800
  rangeOffset := 0xB00
  floatingPointOffset := 0xD00
  resetPc := 0x00000100
  resetSr := 0x00008001
  haltAddr := none

/-- The setting that `State.reset` carries (DESIGN CHOICE): the defaults, but with the FPU present, so that `lf.madd.s` has
the effect of 44 R191 (log entry 2), and with a 1 written to a clear bit of PICSR setting it, so that the write has the
effect of 60 R243 on every operand (log entry 3). Under the defaults both are refused. -/
def resetConfig : Config := { defaultConfig with fpuPresent := true, picsrWriteOne := .set }

end Sys2Proof.Machine
end

