-- ==== Sys2Proof/Machine/State.lean ====
section
/-! DEFINITION. The machine's state, its faults and refusals, and the state after reset (10, 70). -/

namespace Sys2Proof.Machine

/-- Memory: the bytes that are present, by address (20 R60). An address that is not listed holds no value (20 R62). -/
abbrev Memory := List Host.Cell

/-- Everything the spec gives the machine (INVENTORY.md, "State"). -/
structure State where
  /-- The parameters of 00 section 5. No step changes them (00 R12). -/
  cfg : Config
  /-- General registers r0 to r31 (10 R20). -/
  gpr : Vector Word 32
  /-- The address of the instruction to be executed (10 R24). -/
  pc : Word
  /-- `some t`: the instruction at `pc` is in the delay slot of a jump to `t` (10 R25). -/
  ds : Option Word
  /-- The supervision register (10 R27, R28). -/
  sr : Word
  /-- The high 32 bits of the accumulator (10 R33). -/
  machi : Word
  /-- The low 32 bits of the accumulator (10 R33). -/
  maclo : Word
  /-- The exception program counter register (10 R31). -/
  epcr0 : Word
  /-- The exception effective address register (10 R31). -/
  eear0 : Word
  /-- The exception supervision register (10 R31). -/
  esr0 : Word
  /-- The floating point control status register (10 R32). -/
  fpcsr : Word
  /-- The PIC mask register (10 R35). -/
  picmr : Word
  /-- The PIC status register, which is the latch of the interrupt lines (10 R36). -/
  picsr : Word
  /-- The memory space (20 R60). -/
  mem : Memory
  /-- The model's own: the level of the interrupt lines that this step has sampled (60 R241, R243). -/
  irqLines : Word
  /-- The model's own: the levels the lines will have at the next samplings, oldest first; after the last of them the
  level is free (60 R241, log entry 8). -/
  irqInput : List Word
  /-- The model's own: how many times the lines have been sampled (60 R241, log entry 8). -/
  tick : Nat
  /-- The model's own: how many free values have been drawn (00 section 6.1, log entry 9). -/
  draws : Nat
  deriving DecidableEq, Repr

/-- Why the machine stops. None of these is an exception of the hardware: an exception is a next state (60 R224). -/
inductive Fault where
  /-- Raised by the fetch where the memory holds no byte at one of the four addresses: the core is stuck (20 R62).
  Safe: the model stops where the spec gives no step. -/
  | fetchUnmapped (addr : Word)
  /-- Raised by the fetch at an address that is no multiple of 4, which 20 R64 excludes; no reachable state has one
  (10 R24). Safe: the model stops. -/
  | fetchMisaligned (addr : Word)
  /-- Raised by the step at `halt_addr`: the run has ended (70 R289). Safe: the run is over and no claim is made of
  what follows. -/
  | runEnded
  deriving DecidableEq, Repr

/-- Why a step has no meaning (00 section 6.1 `refuse`). Each is safe: nothing can be proved of a state that the
model does not give. -/
inductive Refusal where
  /-- Raised by exec for an instruction that has no meaning yet. Safe. -/
  | notModelled (mnemonic : String)
  /-- Raised by the step for a word of no row of the opcode table (30 R92). Safe. -/
  | unlistedWord (w : Word)
  /-- Raised by the step for a word with a reserved bit set, under the policy `refuse` (30 R91). Safe. -/
  | reservedBitsSet (w : Word)
  /-- Raised by the step for an instruction that names a general register which `NGPR` says is not implemented
  (92 D4). Safe. -/
  | gprNotImplemented (w : Word)
  /-- Raised by an instruction at 0xFFFFFFFC that would go on to `pc + 4` (10 R24). Safe. -/
  | pcWrap
  /-- Raised by `l.jr`, `l.jalr` and `l.rfe` in a delay slot (42 R144). Safe. -/
  | transferInDelaySlot
  /-- Raised by `l.mfspr`, `l.mtspr` and `l.rfe` with SR.SM = 0 (45 R207). Safe. -/
  | userMode
  /-- Raised by `l.mfspr` and `l.mtspr` for a register number of 2^16 or more (45 R201, R202). Safe. -/
  | sprNumberTooLarge (n : Word)
  /-- Raised by `l.mfspr` and `l.mtspr` for a register the model does not hold (10 R37, 45 R206). Safe. -/
  | sprNotHeld (n : Word)
  /-- Raised by `l.mtspr` to SR and by `l.rfe` for a value that sets a "must stay 0" bit (10 R28). Safe. -/
  | srBitMustStayZero (v : Word)
  /-- Raised by `l.mtspr` to PICSR for a 1 written to a clear bit, under the setting `refuse` (60 R243). Safe. -/
  | picsrOneToClearBit (v : Word)
  /-- Raised by `l.rfe` where EPCR0 is no multiple of 4 (45 R205). Safe. -/
  | returnMisaligned (epcr : Word)
  /-- Raised by `lf.madd.d`, which has no operation on a 32-bit implementation (44 R190). Safe. -/
  | doublePrecisionNotApplicable
  /-- Raised by `lf.madd.s` where `fpu_present` is false (44 R191). Safe. -/
  | fpuAbsent
  /-- Raised by `l.maci` where `mac_present` is false (92 D24). Safe. -/
  | macAbsent
  /-- Raised by the instructions of 45 where `companion_set` is false (45 R200). Safe. -/
  | companionNotAdmitted
  deriving DecidableEq, Repr

/-- What a step or an instruction answers. -/
abbrev Result := Host.Outcome State Fault Refusal

/-- The reset state under a setting of the parameters (10 R45, 70 R280). `pc`, `sr`, `picmr`, `picsr` and `ds` have the
values of 10 R45; the registers that 10 R45 leaves unspecified hold 0 (DESIGN CHOICE, log entries 4 and 5); memory
lists nothing; the model's own fields are 0 or empty (DESIGN CHOICE, log entry 35). -/
def State.resetWith (cfg : Config) : State where
  cfg := cfg
  gpr := Vector.replicate 32 0
  pc := cfg.resetPc
  ds := none
  sr := cfg.resetSr
  machi := 0
  maclo := 0
  epcr0 := 0
  eear0 := 0
  esr0 := 0
  fpcsr := 0
  picmr := 0x00000003
  picsr := 0x00000000
  mem := []
  irqLines := 0
  irqInput := []
  tick := 0
  draws := 0

/-- The machine right after reset (10 R45), under the setting of the parameters in Machine/Defaults.lean. -/
def State.reset : State := State.resetWith resetConfig

end Sys2Proof.Machine
end

