-- ==== Sys2Proof/Machine/Flags.lean ====
section
/-! DEFINITION. The fields of SR (10 R27, R28) and every flag computation of the spec (40 R100, 43 R161). -/

namespace Sys2Proof.Machine

/-- The one-bit fields of SR (10 R28). CID, bits 31:28, and the reserved bits 27:17 are not among them: no instruction
can set them. -/
inductive SrField where
  | SM | TEE | IEE | DCE | ICE | DME | IME | LEE | CE | F | CY | OV | OVE | DSX | EPH | FO | SUMRA
  deriving DecidableEq, Repr

/-- The bit of SR that a field is (10 R28). -/
def SrField.pos : SrField → Nat
  | .SM => 0 | .TEE => 1 | .IEE => 2 | .DCE => 3 | .ICE => 4 | .DME => 5 | .IME => 6 | .LEE => 7 | .CE => 8
  | .F => 9 | .CY => 10 | .OV => 11 | .OVE => 12 | .DSX => 13 | .EPH => 14 | .FO => 15 | .SUMRA => 16

/-- `SR.F`: a field of a value of SR. -/
def getSr (sr : Word) (f : SrField) : Bool := sr.getLsbD f.pos

/-- A value of SR with one field replaced. -/
def setSr (sr : Word) (f : SrField) (v : Bool) : Word :=
  if v then sr ||| BitVec.twoPow 32 f.pos else sr &&& ~~~(BitVec.twoPow 32 f.pos)

/-- `SR.F` of the machine. -/
def State.flag (s : State) (f : SrField) : Bool := getSr s.sr f

/-- `SR.CY <- cy; SR.OV <- ov`. -/
def State.setCarryOverflow (s : State) (cy ov : Bool) : State :=
  { s with sr := setSr (setSr s.sr .CY cy) .OV ov }

/-- The bits of SR that "must stay 0": TEE, DME, IME, LEE, CE, SUMRA and CID (10 R28). -/
def srMustStayZero : Word := 0xF00101E2#32

/-- What a write of `v` leaves in SR: bits 15:0 with FO forced to 1, bits 27:17 dropped (45 R206, 92 D36). -/
def srWritten (v : Word) : Word := (v &&& 0x0000FFFF#32) ||| 0x00008000#32

/-- What a read of SR returns: bit 15 as 1 and bits 27:17 as 0 (45 R206). -/
def srRead (sr : Word) : Word := (sr ||| 0x00008000#32) &&& 0xF001FFFF#32

/-- The carry-in as a number. -/
def carryIn (c : Bool) : Nat := if c then 1 else 0

/-- The 32 bits of `a + b + c` (40 R100). -/
def addResult (a b : Word) (c : Bool) : Word := BitVec.ofNat 32 (a.toNat + b.toNat + carryIn c)

/-- Carry of an addition: carry out of bit 31 of the whole sum (40 R100). -/
def addCarry (a b : Word) (c : Bool) : Bool := decide (0x100000000 ≤ a.toNat + b.toNat + carryIn c)

/-- Whether an integer is outside the range of 32-bit two's complement. -/
def outsideSigned (v : Int) : Bool := decide (v < -0x80000000) || decide (v > 0x7FFFFFFF)

/-- Overflow of an addition: the signed sum is not representable (40 R100). -/
def addOverflow (a b : Word) (c : Bool) : Bool := outsideSigned (a.toInt + b.toInt + carryIn c)

/-- The low 32 bits of the product, the same for signed and unsigned operands (43 R161). -/
def mulResult (a b : Word) : Word := BitVec.ofInt 32 (a.toInt * b.toInt)

/-- Overflow of a signed multiplication (43 R161). -/
def mulOverflow (a b : Word) : Bool := outsideSigned (a.toInt * b.toInt)

/-- `ucarry`: the unsigned product does not fit in 32 bits (43 R161). -/
def mulUnsignedCarry (a b : Word) : Bool := decide (0x100000000 ≤ a.toNat * b.toNat)

/-- Carry of a division: the divisor is zero (41 R120, R121). -/
def divCarry (b : Word) : Bool := b == 0#32

/-- The signed quotient, truncated toward zero (41 R124 (a)). -/
def divSigned (a b : Word) : Word := BitVec.ofInt 32 (a.toInt.tdiv b.toInt)

/-- The unsigned quotient (41 R124 (a)). -/
def divUnsigned (a b : Word) : Word := BitVec.ofNat 32 (a.toNat / b.toNat)

/-- Whether the true signed quotient is 2^31, which no 32-bit value is (41 R124 (c)). -/
def divUnrepresentable (a b : Word) : Bool := a == 0x80000000#32 && b == 0xFFFFFFFF#32

/-- One more than the place of the lowest set bit, or 0 (41 R122). -/
def findFirstOne (a : Word) : Word :=
  match (List.range 32).find? (fun i => a.getLsbD i) with
  | some i => BitVec.ofNat 32 (i + 1)
  | none => 0#32

/-- One more than the place of the highest set bit, or 0 (41 R123; its pseudocode governs, 90 C4). -/
def findLastOne (a : Word) : Word :=
  match (List.range 32).reverse.find? (fun i => a.getLsbD i) with
  | some i => BitVec.ofNat 32 (i + 1)
  | none => 0#32

end Sys2Proof.Machine
end

