-- ==== Sys2Proof/Machine/Operands.lean ====
section
/-! DEFINITION. Every operand form: general registers and immediates (10 R20 to R22, 30 R89, 43 R166), and the free
value that stands for a result the spec leaves open (00 section 6.1). -/

namespace Sys2Proof.Machine

/-- Whether a register is the one that ignores writes and reads zero (10 R22, `r0_hardwired`). -/
def State.hardwiredZero (s : State) (r : RegNum) : Bool := s.cfg.r0Hardwired && r == 0#5

/-- `x[r]` (10 R20, R22). -/
def State.readGpr (s : State) (r : RegNum) : Word :=
  if s.hardwiredZero r then 0#32 else s.gpr[r.toNat]'r.isLt

/-- `x[r] <- v` (10 R20, R22). -/
def State.writeGpr (s : State) (r : RegNum) (v : Word) : State :=
  { s with gpr := if s.hardwiredZero r then s.gpr else s.gpr.set r.toNat v r.isLt }

/-- The signed immediate form `I` (30 R89). -/
def signedImm (imm : Imm16) : Word := imm.signExtend 32

/-- The unsigned immediate form `K` (30 R89). -/
def unsignedImm (imm : Imm16) : Word := imm.setWidth 32

/-- The immediate of `l.xori` (43 R166, `xori_ext`; 90 C2). -/
def xoriImm (cfg : Config) (imm : Imm16) : Word :=
  match cfg.xoriExt with
  | .sign => signedImm imm
  | .zero => unsignedImm imm

/-- The value that `draw(32)` gives now: nothing is known of it (00 section 6.1). -/
def State.drawn (s : State) : Word := Config.draw s.draws

/-- The machine with that value used up, so that the next one drawn is another. -/
def State.afterDraw (s : State) : State := { s with draws := s.draws + 1 }

end Sys2Proof.Machine
end

