-- ==== Sys2Proof/Machine/Ops.lean ====
section
/-! DEFINITION. The shared operations: memory (20), the end of an instruction (10 R26 step 8), the delay slot (42 R140),
taking an exception and returning from one (60 R224, 45 R205), the special-purpose registers (45 R206) and the
interrupt controller (60 R242 to R245). -/

namespace Sys2Proof.Machine

/-! ### Memory -/

/-- The byte at an address, or none where memory holds none (20 R62). -/
def Memory.readByte : Memory → Nat → Option Byte
  | [], _ => none
  | (k, v) :: m, a => if k = a then some v else Memory.readByte m a

/-- The memory with one byte replaced, in its canonical form. -/
def Memory.writeByte : Memory → Nat → Byte → Memory
  | [], a, v => [(a, v)]
  | (k, w) :: m, a, v =>
    if a < k then (a, v) :: (k, w) :: m
    else if a = k then (a, v) :: m
    else (k, w) :: Memory.writeByte m a v

/-- The canonical form: addresses strictly rising and inside the address space (20 R60). An unlisted address holds no
value, so every entry differs from it. -/
def Memory.wf : Memory → Bool
  | [] => true
  | (k, _) :: m => decide (k < 0x100000000) && m.all (fun c => decide (k < c.1)) && Memory.wf m

/-- The bytes at `n` addresses from `a` upward, where memory holds them all. -/
def Memory.readBytes (m : Memory) : (a n : Nat) → Option (List Byte)
  | _, 0 => some []
  | a, n + 1 =>
    match m.readByte a, Memory.readBytes m (a + 1) n with
    | some b, some bs => some (b :: bs)
    | _, _ => none

/-- The memory with bytes stored from `a` upward. -/
def Memory.writeBytes (m : Memory) : (a : Nat) → List Byte → Memory
  | _, [] => m
  | a, b :: bs => Memory.writeBytes (m.writeByte a b) (a + 1) bs

/-- Whether an access of `n` bytes at an address is one that 20 R64 allows: 1, 2 or 4 bytes, aligned. -/
def accessAllowed (addr : Word) (n : Nat) : Bool := [1, 2, 4].contains n && addr.toNat % n == 0

/-- `MemRead(addr, n)` (20 R64): none where the access is not allowed or memory does not hold the bytes. -/
def State.memRead (s : State) (addr : Word) (n : Nat) : Option (BitVec (8 * n)) :=
  if accessAllowed addr n then
    (s.mem.readBytes addr.toNat n).map (fun bs => BitVec.ofNat (8 * n) (joinBytes s.cfg.bigEndian bs))
  else none

/-- `MemWrite(addr, n, v)` (20 R64); no instruction in scope uses it. An access that is not allowed stores nothing. -/
def State.memWrite (s : State) (addr : Word) (n : Nat) (v : BitVec (8 * n)) : State :=
  { s with
    mem :=
      if accessAllowed addr n then s.mem.writeBytes addr.toNat (splitBytes s.cfg.bigEndian n v.toNat) else s.mem }

/-! ### The end of an instruction -/

/-- Whether `pc + 4` would wrap, as it does at 0xFFFFFFFC (10 R24, R26). -/
def State.nextPcWraps (s : State) : Bool := decide (0x100000000 ≤ s.pc.toNat + 4)

/-- An instruction that transfers no control is done: a pending jump lands, else the next word follows
(10 R26 step 8, R24). -/
def State.advance (s : State) : Result :=
  match s.ds with
  | some target => .next { s with pc := target, ds := none }
  | none => if s.nextPcWraps then .refused .pcWrap else .next { s with pc := s.pc + 4 }

/-- A jump is done: the next instruction is its delay slot and then `target` follows (42 R140). -/
def State.armDelaySlot (s : State) (target : Word) : Result :=
  if s.nextPcWraps then .refused .pcWrap else .next { s with pc := s.pc + 4, ds := some target }

/-! ### Exceptions -/

/-- The exceptions that the spec models (60 R221, R226). -/
inductive Exception where
  | align | illegal | interrupt | range | floatingPoint
  deriving DecidableEq, Repr

/-- The vector offset of an exception (60 R222). -/
def vectorOffset (cfg : Config) : Exception → Word
  | .align => cfg.alignOffset
  | .illegal => cfg.illegalOffset
  | .interrupt => cfg.interruptOffset
  | .range => cfg.rangeOffset
  | .floatingPoint => cfg.floatingPointOffset

/-- The address of an exception's handler under a value of SR: `vector_base(SR.EPH) + offset` (60 R222). -/
def vectorAddress (cfg : Config) (sr : Word) (e : Exception) : Word :=
  (if getSr sr .EPH then cfg.vectorBaseHigh else cfg.vectorBaseLow) + vectorOffset cfg e

/-- Whether the instruction at `pc` is in a delay slot (10 R25). -/
def State.inDelaySlot (s : State) : Bool := s.ds.isSome

/-- What EPCR0 records (60 R226): in a delay slot the address of the jump (42 R145), else the address of the
instruction, or of the one after it for Floating Point under `fp_epc_next`. -/
def State.exceptionPc (s : State) (e : Exception) : Word :=
  if s.inDelaySlot then s.pc - 4
  else match e with
    | .floatingPoint => if s.cfg.fpEpcNext then s.pc + 4 else s.pc
    | .align | .illegal | .interrupt | .range => s.pc

/-- SR after trap entry: supervisor mode, interrupts, tick timer, translation and (under `trap_clears_ove`) Range
exceptions off, DSX telling a delay slot; every other field kept (60 R224). -/
def srAtEntry (cfg : Config) (inSlot : Bool) (sr : Word) : Word :=
  let off := setSr (setSr (setSr (setSr (setSr sr .SM true) .IEE false) .TEE false) .DME false) .IME false
  setSr (if cfg.trapClearsOve then setSr off .OVE false else off) .DSX inSlot

/-- TAKING AN EXCEPTION: `TrapEntry(e, epc, ea)` with the values of 60 R226 (60 R224). `ea` is what EEAR0 records,
where the exception records an address. -/
def State.takeException (s : State) (e : Exception) (ea : Option Word) : State :=
  { s with
    esr0 := s.sr
    epcr0 := s.exceptionPc e
    eear0 := ea.getD s.eear0
    sr := srAtEntry s.cfg s.inDelaySlot s.sr
    ds := none
    pc := vectorAddress s.cfg s.sr e }

/-- RETURNING FROM AN EXCEPTION: `SR <- ESR0`, `pc <- EPCR0`, no delay slot (45 R205, 60 R232). Refused where ESR0 sets
a "must stay 0" bit or EPCR0 is no multiple of 4. -/
def State.returnFromException (s : State) : Result :=
  if s.esr0 &&& srMustStayZero ≠ 0#32 then .refused (.srBitMustStayZero s.esr0)
  else if s.epcr0 &&& 3#32 ≠ 0#32 then .refused (.returnMisaligned s.epcr0)
  else .next { s with sr := srWritten s.esr0, pc := s.epcr0, ds := none }

/-! ### Arithmetic that may raise the Range exception -/

/-- The common end of the additions, multiplications and divisions: write rD, CY and OV, and raise the Range exception
where `trap` holds and SR.OVE was set before; under `range_commits` the writes precede the exception, else it has none
(40 R105, 41 R124 (d)). `s` is the machine before, `s'` the machine to write into (free values drawn). -/
def State.finishArith (s s' : State) (d : RegNum) (result : Word) (cy ov trap : Bool) : Result :=
  let written := (s'.writeGpr d result).setCarryOverflow cy ov
  if trap && s.flag .OVE then .next ((if s.cfg.rangeCommits then written else s).takeException .range none)
  else written.advance

/-- An addition of 40: the sum with its flags, Range on overflow (40 R100, R105). -/
def State.addInto (s : State) (d : RegNum) (a b : Word) (c : Bool) : Result :=
  s.finishArith s d (addResult a b c) (addCarry a b c) (addOverflow a b c) (addOverflow a b c)

/-- A signed multiplication of 43: the low 32 bits of the product, CY by `mul_carry`, Range on overflow
(43 R161, R162). -/
def State.mulInto (s : State) (d : RegNum) (a b : Word) : Result :=
  match s.cfg.mulCarry with
  | .ucarry => s.finishArith s d (mulResult a b) (mulUnsignedCarry a b) (mulOverflow a b) (mulOverflow a b)
  | .draw => s.finishArith s.afterDraw d (mulResult a b) (s.drawn.getLsbD 0) (mulOverflow a b) (mulOverflow a b)

/-- A division of 41: the quotient, or a free value where the spec states none (`isOpen`); CY tells a zero divisor, OV is
0, Range on a zero divisor (41 R120, R121, R124). -/
def State.divInto (s : State) (d : RegNum) (b quotient : Word) (isOpen : Bool) : Result :=
  if isOpen then s.finishArith s.afterDraw d s.drawn (divCarry b) false (divCarry b)
  else s.finishArith s d quotient (divCarry b) false (divCarry b)

/-! ### The interrupt controller -/

/-- Which of the lines the latch lets in (60 R242, `pic_mask_before_latch`). -/
def State.latchOf (s : State) (lines : Word) : Word :=
  if s.cfg.picMaskBeforeLatch then lines &&& s.picmr else lines

/-- `latch_in` at this step: of the lines it has sampled (60 R242, R243). -/
def State.latchIn (s : State) : Word := s.latchOf s.irqLines

/-- The next level of the lines: what `irqInput` says, and after that a free value (60 R241). -/
def State.nextLines (s : State) : Word := s.irqInput.head?.getD (Config.irq s.tick)

/-- Sampling the lines, the first act of a step: PICSR latches what the latch lets in, where there is a PIC
(10 R26 step 1, 60 R242). -/
def State.sample (s : State) : State :=
  { s with
    irqLines := s.nextLines
    irqInput := s.irqInput.tail
    tick := s.tick + 1
    picsr := if s.cfg.picPresent then s.picsr ||| s.latchOf s.nextLines else s.picsr }

/-- `pic_request` (60 R245). -/
def State.picRequest (s : State) : Bool :=
  if s.cfg.picMaskBeforeLatch then s.picsr != 0#32 else s.picsr &&& s.picmr != 0#32

/-- Whether the Interrupt exception is taken at this instruction boundary (60 R245). -/
def State.interruptTaken (s : State) : Bool := s.flag .IEE && s.cfg.picPresent && s.picRequest

/-- What a write of `v` leaves in PICSR: a bit written 0 becomes its latch input, a bit written 1 stays set or, where it
was clear, is set (60 R243). -/
def State.picsrWritten (s : State) (v : Word) : Word :=
  (~~~v &&& s.latchIn) ||| (v &&& s.picsr) ||| (v &&& ~~~s.picsr)

/-- What a write of `v` leaves in PICMR: bits 1:0 stay 0b11 (10 R35). -/
def picmrWritten (v : Word) : Word := (v &&& 0xFFFFFFFC#32) ||| 0x3#32

/-! ### The special-purpose registers -/

/-- The special-purpose registers the model holds (10 R37). -/
inductive Spr where
  | sr | fpcsr | epcr0 | eear0 | esr0 | maclo | machi | picmr | picsr
  deriving DecidableEq, Repr

/-- The register of a number, or none: VR, UPR, NPC, PPC and every number that no rule describes (10 R37). -/
def sprOfNumber (n : Word) : Option Spr :=
  if n = 0x0011#32 then some .sr
  else if n = 0x0014#32 then some .fpcsr
  else if n = 0x0020#32 then some .epcr0
  else if n = 0x0030#32 then some .eear0
  else if n = 0x0040#32 then some .esr0
  else if n = 0x2801#32 then some .maclo
  else if n = 0x2802#32 then some .machi
  else if n = 0x4800#32 then some .picmr
  else if n = 0x4802#32 then some .picsr
  else none

/-- Whether the parameters say that the register is held (10 R37). -/
def sprPresent (cfg : Config) : Spr → Bool
  | .fpcsr => cfg.fpuPresent
  | .maclo | .machi => cfg.macPresent
  | .picmr | .picsr => cfg.picPresent
  | .sr | .epcr0 | .eear0 | .esr0 => true

/-- The SPR that `l.mfspr` and `l.mtspr` address: a number of 16 bits that the model holds (45 R201, R202, R206). -/
def State.sprAt (s : State) (n : Word) : Except Refusal Spr :=
  if 0x10000 ≤ n.toNat then .error (.sprNumberTooLarge n)
  else match sprOfNumber n with
    | some r => if sprPresent s.cfg r then .ok r else .error (.sprNotHeld n)
    | none => .error (.sprNotHeld n)

/-- `ReadSPR` (45 R206). -/
def State.readSpr (s : State) : Spr → Word
  | .sr => srRead s.sr
  | .fpcsr => s.fpcsr
  | .epcr0 => s.epcr0
  | .eear0 => s.eear0
  | .esr0 => s.esr0
  | .maclo => s.maclo
  | .machi => s.machi
  | .picmr => s.picmr
  | .picsr => s.picsr

/-- What a write of `v` leaves in the register (45 R206). -/
def State.sprWritten (s : State) (r : Spr) (v : Word) : Word :=
  match r with
  | .sr => srWritten v
  | .fpcsr => v &&& 0x00000FFF#32
  | .picmr => picmrWritten v
  | .picsr => s.picsrWritten v
  | .epcr0 | .eear0 | .esr0 | .maclo | .machi => v

/-- The machine with one special-purpose register replaced. -/
def State.setSpr (s : State) (r : Spr) (v : Word) : State :=
  match r with
  | .sr => { s with sr := v }
  | .fpcsr => { s with fpcsr := v }
  | .epcr0 => { s with epcr0 := v }
  | .eear0 => { s with eear0 := v }
  | .esr0 => { s with esr0 := v }
  | .maclo => { s with maclo := v }
  | .machi => { s with machi := v }
  | .picmr => { s with picmr := v }
  | .picsr => { s with picsr := v }

/-- `WriteSPR` (45 R206): refused where the value sets a "must stay 0" bit of SR (10 R28), and where it writes 1 to a clear
bit of PICSR and `picsr_write_one` refuses that (60 R243). -/
def State.writeSpr (s : State) (r : Spr) (v : Word) : Except Refusal State :=
  if r = .sr ∧ v &&& srMustStayZero ≠ 0#32 then .error (.srBitMustStayZero v)
  else if r = .picsr ∧ s.cfg.picsrWriteOne = .refuse ∧ v &&& ~~~s.picsr ≠ 0#32 then .error (.picsrOneToClearBit v)
  else .ok (s.setSpr r (s.sprWritten r v))

/-! ### Guards -/

/-- An instruction of 45 runs only where `companion_set` admits it (45 R200). -/
def State.ifCompanion (s : State) (k : Result) : Result :=
  if s.cfg.companionSet then k else .refused .companionNotAdmitted

/-- A privileged instruction runs only in supervisor mode (45 R207, 60 R235). -/
def State.ifSupervisor (s : State) (k : Result) : Result :=
  if s.flag .SM then k else .refused .userMode

/-- A control transfer runs only outside a delay slot (42 R144). -/
def State.outsideDelaySlot (s : State) (k : Result) : Result :=
  if s.inDelaySlot then .refused .transferInDelaySlot else k

/-- The next part of an instruction after one that may be refused. -/
def orRefuse {α : Type} (r : Except Refusal α) (k : α → Result) : Result :=
  match r with
  | .ok a => k a
  | .error e => .refused e

end Sys2Proof.Machine
end

