-- ==== Sys2Proof/Machine/Add.lean ====
section
/-! DEFINITION. The additions (spec/40_orbis_add.md). -/

namespace Sys2Proof.Machine

/-- `l.add rD,rA,rB` (40 R101). -/
def execAdd (d a b : RegNum) (s : State) : Result :=
  s.addInto d (s.readGpr a) (s.readGpr b) false

/-- `l.addc rD,rA,rB` (40 R102). -/
def execAddc (d a b : RegNum) (s : State) : Result :=
  s.addInto d (s.readGpr a) (s.readGpr b) (s.flag .CY)

/-- `l.addi rD,rA,I` (40 R103). -/
def execAddi (d a : RegNum) (imm : Imm16) (s : State) : Result :=
  s.addInto d (s.readGpr a) (signedImm imm) false

/-- `l.addic rD,rA,I` (40 R104). -/
def execAddic (d a : RegNum) (imm : Imm16) (s : State) : Result :=
  s.addInto d (s.readGpr a) (signedImm imm) (s.flag .CY)

end Sys2Proof.Machine
end

