-- ==== Sys2Proof/Machine/Companion.lean ====
section
/-! DEFINITION. The companion instructions (spec/45_companion.md). -/

namespace Sys2Proof.Machine

/-- The register number of `l.mfspr` and `l.mtspr`: the bitwise OR of rA and K (45 R201, R202). -/
def State.sprNumber (s : State) (a : RegNum) (imm : Imm16) : Word := s.readGpr a ||| unsignedImm imm

/-- `l.mfspr rD,rA,K` (45 R201, R206, R207). -/
def execMfspr (d a : RegNum) (imm : Imm16) (s : State) : Result :=
  s.ifCompanion <| s.ifSupervisor <|
    orRefuse (s.sprAt (s.sprNumber a imm)) fun r => (s.writeGpr d (s.readSpr r)).advance

/-- `l.mtspr rA,rB,K` (45 R202, R206, R207). -/
def execMtspr (a b : RegNum) (imm : Imm16) (s : State) : Result :=
  s.ifCompanion <| s.ifSupervisor <|
    orRefuse (s.sprAt (s.sprNumber a imm)) fun r =>
      orRefuse (s.writeSpr r (s.readGpr b)) fun s' => s'.advance

/-- `l.andi rD,rA,K` (45 R203). -/
def execAndi (d a : RegNum) (imm : Imm16) (s : State) : Result :=
  s.ifCompanion ((s.writeGpr d (s.readGpr a &&& unsignedImm imm)).advance)

/-- `l.ori rD,rA,K` (45 R204). -/
def execOri (d a : RegNum) (imm : Imm16) (s : State) : Result :=
  s.ifCompanion ((s.writeGpr d (s.readGpr a ||| unsignedImm imm)).advance)

/-- `l.rfe` (45 R205, R207, 42 R144). -/
def execRfe (s : State) : Result :=
  s.ifCompanion <| s.ifSupervisor <| s.outsideDelaySlot s.returnFromException

end Sys2Proof.Machine
end

