-- ==== Sys2Proof/Machine/DivFind.lean ====
section
/-! DEFINITION. The divisions and the bit searches (spec/41_orbis_div_find.md). -/

namespace Sys2Proof.Machine

/-- `l.div rD,rA,rB` (41 R120): no quotient is stated for a zero divisor or for 0x80000000 / 0xFFFFFFFF (R124). -/
def execDiv (d a b : RegNum) (s : State) : Result :=
  s.divInto d (s.readGpr b) (divSigned (s.readGpr a) (s.readGpr b))
    (divCarry (s.readGpr b) || divUnrepresentable (s.readGpr a) (s.readGpr b))

/-- `l.divu rD,rA,rB` (41 R121): no quotient is stated for a zero divisor (R124). -/
def execDivu (d a b : RegNum) (s : State) : Result :=
  s.divInto d (s.readGpr b) (divUnsigned (s.readGpr a) (s.readGpr b)) (divCarry (s.readGpr b))

/-- `l.ff1 rD,rA` (41 R122). -/
def execFf1 (d a : RegNum) (s : State) : Result :=
  (s.writeGpr d (findFirstOne (s.readGpr a))).advance

/-- `l.fl1 rD,rA` (41 R123). -/
def execFl1 (d a : RegNum) (s : State) : Result :=
  (s.writeGpr d (findLastOne (s.readGpr a))).advance

end Sys2Proof.Machine
end

