-- ==== Sys2Proof/Machine/Float.lean ====
section
/-! DEFINITION. The floating-point multiply-adds (spec/44_orfpx.md). -/

namespace Sys2Proof.Machine

/-- `FPCSR.FPEE`, bit 0 (10 R32). -/
def State.fpExceptionsEnabled (s : State) : Bool := s.fpcsr.getLsbD 0

/-- `FPCSR.RM`, bits 2:1 (10 R32). -/
def State.roundingMode (s : State) : BitVec 2 := s.fpcsr.extractLsb' 1 2

/-- FPCSR with flags added: they are sticky, bits 11:3 (10 R32, 44 R191). -/
def fpcsrWithFlags (fpcsr : Word) (flags : FpFlags) : Word := fpcsr ||| (flags.setWidth 32 <<< 3)

/-- `lf.madd.s rD,rA,rB` (44 R191): the result and the flags are the open function `fp_madd32` of rA, rB, the old rD and
the rounding mode (R192); the Floating Point exception is raised after both are written, when the operation sets a flag
and FPCSR.FPEE is 1 (R193). -/
def execLfMaddS (d a b : RegNum) (s : State) : Result :=
  let r := Config.fpMadd32 (s.readGpr a) (s.readGpr b) (s.readGpr d) s.roundingMode
  let written := { s.writeGpr d r.1 with fpcsr := fpcsrWithFlags s.fpcsr r.2 }
  if s.cfg.fpuPresent then
    if s.fpExceptionsEnabled && r.2 != 0#9 then .next (written.takeException .floatingPoint none)
    else written.advance
  else .refused .fpuAbsent

/-- `lf.madd.d rD,rA,rB` (44 R190): "32-bit Implementation: N/A"; the word is decoded and refused. -/
def execLfMaddD (_d _a _b : RegNum) (_s : State) : Result :=
  .refused .doublePrecisionNotApplicable

end Sys2Proof.Machine
end

