-- ==== Sys2Proof/Syntax.lean ====
section
/-! DEFINITION. The instructions: one constructor for each row of spec/opcode_table.json, in the order of 30 R90
and then 45 R201 to R205. Operands stand in the order of the assembler syntax (30 R94). -/

namespace Sys2Proof

/-- An instruction with its operand fields. Every field has the width its encoding gives it (30 R81 to R88), so no
register number and no immediate can be out of range. -/
inductive Instr where
  /-- `l.jr rB`, format JR (42 R142). -/
  | jr (b : RegNum)
  /-- `l.jalr rB`, format JR (42 R141). -/
  | jalr (b : RegNum)
  /-- `l.maci rA,I`, format AI (43 R160). -/
  | maci (a : RegNum) (imm : Imm16)
  /-- `l.addi rD,rA,I`, format I (40 R103). -/
  | addi (d a : RegNum) (imm : Imm16)
  /-- `l.addic rD,rA,I`, format I (40 R104). -/
  | addic (d a : RegNum) (imm : Imm16)
  /-- `l.xori rD,rA,K`, format K (43 R165, R166). -/
  | xori (d a : RegNum) (imm : Imm16)
  /-- `l.muli rD,rA,I`, format I (43 R163). -/
  | muli (d a : RegNum) (imm : Imm16)
  /-- `lf.madd.s rD,rA,rB`, format F (44 R191). -/
  | lfMaddS (d a b : RegNum)
  /-- `lf.madd.d rD,rA,rB`, format F (44 R190). -/
  | lfMaddD (d a b : RegNum)
  /-- `l.add rD,rA,rB`, format R (40 R101). -/
  | add (d a b : RegNum)
  /-- `l.addc rD,rA,rB`, format R (40 R102). -/
  | addc (d a b : RegNum)
  /-- `l.mul rD,rA,rB`, format R (43 R162). -/
  | mul (d a b : RegNum)
  /-- `l.div rD,rA,rB`, format R (41 R120). -/
  | div (d a b : RegNum)
  /-- `l.divu rD,rA,rB`, format R (41 R121). -/
  | divu (d a b : RegNum)
  /-- `l.mulu rD,rA,rB`, format R (43 R164). -/
  | mulu (d a b : RegNum)
  /-- `l.ff1 rD,rA`, format RA (41 R122). -/
  | ff1 (d a : RegNum)
  /-- `l.fl1 rD,rA`, format RA (41 R123). -/
  | fl1 (d a : RegNum)
  /-- `l.rfe`, format RFE (45 R205). -/
  | rfe
  /-- `l.andi rD,rA,K`, format K (45 R203). -/
  | andi (d a : RegNum) (imm : Imm16)
  /-- `l.ori rD,rA,K`, format K (45 R204). -/
  | ori (d a : RegNum) (imm : Imm16)
  /-- `l.mfspr rD,rA,K`, format K (45 R201). -/
  | mfspr (d a : RegNum) (imm : Imm16)
  /-- `l.mtspr rA,rB,K`, format MTSPR (45 R202). -/
  | mtspr (a b : RegNum) (imm : Imm16)
  deriving DecidableEq, Repr

end Sys2Proof
end

