-- ==== Sys2Proof/WellFormed.lean ====
section
/-! DEFINITION. Well-formed instructions. The widths of `Instr`'s fields leave nothing out of range, so the one check
is the one restriction the manual puts on the operands a program may name (42 R141). -/

namespace Sys2Proof

/-- The number of the link register, r9 (10 R21). -/
def linkReg : RegNum := 9#5

/-- Whether the manual allows the instruction to be written: "It is not allowed to specify the link register as rB"
of `l.jalr` (42 R141); no other page restricts its operands. An ill-formed `l.jalr r9` still has an encoding, and a
meaning: the ILLEGAL exception (42 R143). -/
def Instr.wellFormed : Instr → Bool
  | .jalr b => b != linkReg
  | .jr _ | .maci _ _ | .addi _ _ _ | .addic _ _ _ | .xori _ _ _ | .muli _ _ _ | .lfMaddS _ _ _ | .lfMaddD _ _ _
  | .add _ _ _ | .addc _ _ _ | .mul _ _ _ | .div _ _ _ | .divu _ _ _ | .mulu _ _ _ | .ff1 _ _ | .fl1 _ _ | .rfe
  | .andi _ _ _ | .ori _ _ _ | .mfspr _ _ _ | .mtspr _ _ _ => true

end Sys2Proof
end

