-- ==== Sys2Proof/Machine/Jump.lean ====
section
/-! DEFINITION. The register jumps (spec/42_orbis_jump.md). -/

namespace Sys2Proof.Machine

/-- Whether an address is a multiple of 4 (42 R141, R142: "word aligned"). -/
def wordAligned (a : Word) : Bool := a &&& 3#32 == 0#32

/-- What a faulting jump does: the ALIGN exception, EEAR0 recording the misaligned target or, under the other setting
of `align_eear`, a free value (42 R143). -/
def State.raiseAlign (s : State) (target : Word) : Result :=
  match s.cfg.alignEear with
  | .target => .next (s.takeException .align (some target))
  | .draw => .next (s.afterDraw.takeException .align (some s.drawn))

/-- `l.jr rB` (42 R142). -/
def execJr (b : RegNum) (s : State) : Result :=
  s.outsideDelaySlot
    (if wordAligned (s.readGpr b) then s.armDelaySlot (s.readGpr b) else s.raiseAlign (s.readGpr b))

/-- `l.jalr rB` (42 R141): ILLEGAL before ALIGN (R143 (a)); the link register is written at the jump, so the delay slot
reads the new value. -/
def execJalr (b : RegNum) (s : State) : Result :=
  s.outsideDelaySlot
    (if b = linkReg then .next (s.takeException .illegal (some s.pc))
     else if wordAligned (s.readGpr b) then (s.writeGpr linkReg (s.pc + 8)).armDelaySlot (s.readGpr b)
     else s.raiseAlign (s.readGpr b))

end Sys2Proof.Machine
end

