-- ==== Sys2Proof/Machine/MacMul.lean ====
section
/-! DEFINITION. Multiply-accumulate, the multiplications and `l.xori` (spec/43_orbis_mac_mul_xori.md). -/

namespace Sys2Proof.Machine

/-- The 64-bit accumulator `MACHI ++ MACLO` (10 R33). -/
def State.accumulator (s : State) : BitVec 64 := s.machi ++ s.maclo

/-- The accumulator written back to its two halves (43 R160). -/
def State.setAccumulator (s : State) (acc : BitVec 64) : State :=
  { s with machi := acc.extractLsb' 32 32, maclo := acc.extractLsb' 0 32 }

/-- `l.maci rA,I` (43 R160): the product is cut to 32 bits before it is sign extended; the sum wraps modulo 2^64. -/
def execMaci (a : RegNum) (imm : Imm16) (s : State) : Result :=
  if s.cfg.macPresent then
    (s.setAccumulator (s.accumulator + (mulResult (s.readGpr a) (signedImm imm)).signExtend 64)).advance
  else .refused .macAbsent

/-- `l.mul rD,rA,rB` (43 R162). -/
def execMul (d a b : RegNum) (s : State) : Result :=
  s.mulInto d (s.readGpr a) (s.readGpr b)

/-- `l.muli rD,rA,I` (43 R163). -/
def execMuli (d a : RegNum) (imm : Imm16) (s : State) : Result :=
  s.mulInto d (s.readGpr a) (signedImm imm)

/-- `l.mulu rD,rA,rB` (43 R164): OV is 0 and no exception is raised. -/
def execMulu (d a b : RegNum) (s : State) : Result :=
  s.finishArith s d (mulResult (s.readGpr a) (s.readGpr b)) (mulUnsignedCarry (s.readGpr a) (s.readGpr b)) false false

/-- `l.xori rD,rA,K` (43 R166). -/
def execXori (d a : RegNum) (imm : Imm16) (s : State) : Result :=
  (s.writeGpr d (s.readGpr a ^^^ xoriImm s.cfg imm)).advance

end Sys2Proof.Machine
end

