-- ==== Sys2Proof/Machine/Dispatch.lean ====
section
/-! DEFINITION. What each instruction does, one arm for each row of spec/opcode_table.json. -/

namespace Sys2Proof.Machine

-- 10 R26 steps 6 to 8 for the instruction at the program counter, the delay slot and the advance among them.
def exec (i : Instr) (s : State) : Host.Outcome State Fault Refusal :=
  match i with
  | .jr b => Sys2Proof.Machine.execJr b s
  | .jalr b => Sys2Proof.Machine.execJalr b s
  | .maci a imm => Sys2Proof.Machine.execMaci a imm s
  | .addi d a imm => Sys2Proof.Machine.execAddi d a imm s
  | .addic d a imm => Sys2Proof.Machine.execAddic d a imm s
  | .xori d a imm => Sys2Proof.Machine.execXori d a imm s
  | .muli d a imm => Sys2Proof.Machine.execMuli d a imm s
  | .lfMaddS d a b => Sys2Proof.Machine.execLfMaddS d a b s
  | .lfMaddD d a b => Sys2Proof.Machine.execLfMaddD d a b s
  | .add d a b => Sys2Proof.Machine.execAdd d a b s
  | .addc d a b => Sys2Proof.Machine.execAddc d a b s
  | .mul d a b => Sys2Proof.Machine.execMul d a b s
  | .div d a b => Sys2Proof.Machine.execDiv d a b s
  | .divu d a b => Sys2Proof.Machine.execDivu d a b s
  | .mulu d a b => Sys2Proof.Machine.execMulu d a b s
  | .ff1 d a => Sys2Proof.Machine.execFf1 d a s
  | .fl1 d a => Sys2Proof.Machine.execFl1 d a s
  | .rfe => Sys2Proof.Machine.execRfe s
  | .andi d a imm => Sys2Proof.Machine.execAndi d a imm s
  | .ori d a imm => Sys2Proof.Machine.execOri d a imm s
  | .mfspr d a imm => Sys2Proof.Machine.execMfspr d a imm s
  | .mtspr a b imm => Sys2Proof.Machine.execMtspr a b imm s

end Sys2Proof.Machine
end

