-- ==== Sys2Proof/Decode.lean ====
section
/-! DEFINITION. From instruction words to instructions and back (30, 45 R201 to R205). The decoder reads the opcode
map of 30 R90 row by row; the encoder writes the formats of 30 R82 to R88. -/

namespace Sys2Proof

/-- One row of the opcode map: a word `w` is this row's instruction when `w AND mask = pattern`; `reserved` selects
the reserved bits (30 R90). -/
structure Row where
  mask : Word
  pattern : Word
  reserved : Word
  /-- The instruction, its operands taken from the word's fields. -/
  build : Word → Instr

/-- The `D` field, bits 25:21 (30 R81). -/
def fieldD (w : Word) : RegNum := w.extractLsb' 21 5

/-- The `A` field, bits 20:16 (30 R81). -/
def fieldA (w : Word) : RegNum := w.extractLsb' 16 5

/-- The `B` field, bits 15:11 (30 R81). -/
def fieldB (w : Word) : RegNum := w.extractLsb' 11 5

/-- The `I` or `K` field, bits 15:0 (30 R81, R89). -/
def fieldImm (w : Word) : Imm16 := w.extractLsb' 0 16

/-- The split immediate of `l.mtspr`: bits 25:21 above bits 10:0 (45 R202). -/
def fieldSplitImm (w : Word) : Imm16 := w.extractLsb' 21 5 ++ w.extractLsb' 0 11

/-- The opcode map: the seventeen rows of 30 R90, then the five companion rows of 45 R201 to R205. -/
def opcodeRows : List Row := [
  { mask := 0xFC000000, pattern := 0x44000000, reserved := 0x03FF07FF, build := fun w => .jr (fieldB w) },
  { mask := 0xFC000000, pattern := 0x48000000, reserved := 0x03FF07FF, build := fun w => .jalr (fieldB w) },
  { mask := 0xFC000000, pattern := 0x4C000000, reserved := 0x03E00000, build := fun w => .maci (fieldA w) (fieldImm w) },
  { mask := 0xFC000000, pattern := 0x9C000000, reserved := 0, build := fun w => .addi (fieldD w) (fieldA w) (fieldImm w) },
  { mask := 0xFC000000, pattern := 0xA0000000, reserved := 0, build := fun w => .addic (fieldD w) (fieldA w) (fieldImm w) },
  { mask := 0xFC000000, pattern := 0xAC000000, reserved := 0, build := fun w => .xori (fieldD w) (fieldA w) (fieldImm w) },
  { mask := 0xFC000000, pattern := 0xB0000000, reserved := 0, build := fun w => .muli (fieldD w) (fieldA w) (fieldImm w) },
  { mask := 0xFC0000FF, pattern := 0xC8000007, reserved := 0x700, build := fun w => .lfMaddS (fieldD w) (fieldA w) (fieldB w) },
  { mask := 0xFC0000FF, pattern := 0xC8000017, reserved := 0x700, build := fun w => .lfMaddD (fieldD w) (fieldA w) (fieldB w) },
  { mask := 0xFC00030F, pattern := 0xE0000000, reserved := 0x4F0, build := fun w => .add (fieldD w) (fieldA w) (fieldB w) },
  { mask := 0xFC00030F, pattern := 0xE0000001, reserved := 0x4F0, build := fun w => .addc (fieldD w) (fieldA w) (fieldB w) },
  { mask := 0xFC00030F, pattern := 0xE0000306, reserved := 0x4F0, build := fun w => .mul (fieldD w) (fieldA w) (fieldB w) },
  { mask := 0xFC00030F, pattern := 0xE0000309, reserved := 0x4F0, build := fun w => .div (fieldD w) (fieldA w) (fieldB w) },
  { mask := 0xFC00030F, pattern := 0xE000030A, reserved := 0x4F0, build := fun w => .divu (fieldD w) (fieldA w) (fieldB w) },
  { mask := 0xFC00030F, pattern := 0xE000030B, reserved := 0x4F0, build := fun w => .mulu (fieldD w) (fieldA w) (fieldB w) },
  { mask := 0xFC00030F, pattern := 0xE000000F, reserved := 0xFCF0, build := fun w => .ff1 (fieldD w) (fieldA w) },
  { mask := 0xFC00030F, pattern := 0xE000010F, reserved := 0xFCF0, build := fun w => .fl1 (fieldD w) (fieldA w) },
  { mask := 0xFC000000, pattern := 0xB4000000, reserved := 0, build := fun w => .mfspr (fieldD w) (fieldA w) (fieldImm w) },
  { mask := 0xFC000000, pattern := 0xC0000000, reserved := 0, build := fun w => .mtspr (fieldA w) (fieldB w) (fieldSplitImm w) },
  { mask := 0xFC000000, pattern := 0xA4000000, reserved := 0, build := fun w => .andi (fieldD w) (fieldA w) (fieldImm w) },
  { mask := 0xFC000000, pattern := 0xA8000000, reserved := 0, build := fun w => .ori (fieldD w) (fieldA w) (fieldImm w) },
  { mask := 0xFC000000, pattern := 0x24000000, reserved := 0x03FFFFFF, build := fun _ => .rfe }]

/-- A word is a row's when its selected bits are the row's pattern (30 R90). -/
def Row.accepts (r : Row) (w : Word) : Bool := w &&& r.mask == r.pattern

/-- Why a word is not an instruction of the model. -/
inductive DecodeError where
  /-- It is no row's word (30 R92). -/
  | unlisted
  /-- It is a row's word with a reserved bit set, under the policy `refuse` (30 R91). -/
  | reservedBits
  deriving DecidableEq, Repr

/-- The instruction that a word is, under a `reserved_bits_policy` (30 R90 to R92, R96). Total on all words. -/
def decode (policy : ReservedBits) (w : Word) : Except DecodeError Instr :=
  match opcodeRows.find? (fun r => r.accepts w) with
  | none => .error .unlisted
  | some r => if policy = .refuse ∧ w &&& r.reserved ≠ 0#32 then .error .reservedBits else .ok (r.build w)

/-- The instruction that four bytes from the lowest address upward are, in the byte order given (20 R62, R63). -/
def decodeBytes (policy : ReservedBits) (bigEndian : Bool) (bytes : List Byte) : Except DecodeError Instr :=
  if bytes.length = 4 then decode policy (BitVec.ofNat 32 (Machine.joinBytes bigEndian bytes)) else .error .unlisted

/-- Format R: major opcode 0x38, D, A, B, the res bit, op2, the reserved field, op3 (30 R82). -/
def encodeR (op2 : BitVec 2) (op3 : BitVec 4) (d a b : RegNum) : Word :=
  0x38#6 ++ d ++ a ++ b ++ 0#1 ++ op2 ++ 0#4 ++ op3

/-- Format RA: as format R with bits 15:11 reserved and op3 0xf (30 R83). -/
def encodeRA (op2 : BitVec 2) (d a : RegNum) : Word :=
  0x38#6 ++ d ++ a ++ 0#5 ++ 0#1 ++ op2 ++ 0#4 ++ 0xf#4

/-- Formats I and K: opcode, D, A, a 16-bit immediate (30 R84, R85). -/
def encodeI (op : BitVec 6) (d a : RegNum) (imm : Imm16) : Word :=
  op ++ d ++ a ++ imm

/-- Format AI: major opcode 0x13, a reserved field, A, I (30 R86). -/
def encodeAI (a : RegNum) (imm : Imm16) : Word :=
  0x13#6 ++ 0#5 ++ a ++ imm

/-- Format JR: opcode, a reserved field, B, a reserved field (30 R87). -/
def encodeJR (op : BitVec 6) (b : RegNum) : Word :=
  op ++ 0#10 ++ b ++ 0#11

/-- Format F: major opcode 0x32, D, A, B, a reserved field, op8 (30 R88). -/
def encodeF (op8 : BitVec 8) (d a b : RegNum) : Word :=
  0x32#6 ++ d ++ a ++ b ++ 0#3 ++ op8

/-- Format MTSPR: opcode 0x30, K[15:11], A, B, K[10:0] (45 R202). -/
def encodeMTSPR (a b : RegNum) (imm : Imm16) : Word :=
  0x30#6 ++ imm.extractLsb' 11 5 ++ a ++ b ++ imm.extractLsb' 0 11

/-- The canonical word of an instruction: every reserved bit 0 (30 R91). -/
def encode : Instr → Word
  | .jr b => encodeJR 0x11 b
  | .jalr b => encodeJR 0x12 b
  | .maci a imm => encodeAI a imm
  | .addi d a imm => encodeI 0x27 d a imm
  | .addic d a imm => encodeI 0x28 d a imm
  | .xori d a imm => encodeI 0x2b d a imm
  | .muli d a imm => encodeI 0x2c d a imm
  | .lfMaddS d a b => encodeF 0x07 d a b
  | .lfMaddD d a b => encodeF 0x17 d a b
  | .add d a b => encodeR 0x0 0x0 d a b
  | .addc d a b => encodeR 0x0 0x1 d a b
  | .mul d a b => encodeR 0x3 0x6 d a b
  | .div d a b => encodeR 0x3 0x9 d a b
  | .divu d a b => encodeR 0x3 0xa d a b
  | .mulu d a b => encodeR 0x3 0xb d a b
  | .ff1 d a => encodeRA 0x0 d a
  | .fl1 d a => encodeRA 0x1 d a
  | .rfe => 0x09#6 ++ 0#26
  | .andi d a imm => encodeI 0x29 d a imm
  | .ori d a imm => encodeI 0x2a d a imm
  | .mfspr d a imm => encodeI 0x2d d a imm
  | .mtspr a b imm => encodeMTSPR a b imm

/-- The decoder's answer for a word numbered as spec/opcode_table.json numbers it: the low `nbits` bits of `w`, every
higher bit 0, laid out as four bytes in the hardware's big-endian order (20 R63) and decoded under the spec's default
policy (30 R91). -/
def decodeTableWord (nbits w : Nat) : Option Instr :=
  match decodeBytes .refuse true (Machine.splitBytes true 4 (w % 2 ^ nbits)) with
  | .ok i => some i
  | .error _ => none

/-- The general registers an instruction names or, for `l.jalr`, writes without naming (10 R20, R21). -/
def Instr.registers : Instr → List RegNum
  | .add d a b | .addc d a b | .mul d a b | .div d a b | .divu d a b | .mulu d a b => [d, a, b]
  | .lfMaddS d a b | .lfMaddD d a b => [d, a, b]
  | .addi d a _ | .addic d a _ | .xori d a _ | .muli d a _ | .andi d a _ | .ori d a _ | .mfspr d a _ => [d, a]
  | .ff1 d a | .fl1 d a => [d, a]
  | .mtspr a b _ => [a, b]
  | .maci a _ => [a]
  | .jr b => [b]
  | .jalr b => [9#5, b]
  | .rfe => []

end Sys2Proof
end

