-- ==== Sys2Proof/Machine/Fetch.lean ====
section
/-! DEFINITION. Fetching an instruction's word and reading what it is (10 R26 steps 4 and 5), and placing a word where
it will be fetched. -/

namespace Sys2Proof.Machine

/-- `w <- MemRead(pc, 4)` (20 R62): the core is stuck where memory does not hold the four bytes. -/
def State.fetch (s : State) : Except Fault Word :=
  if accessAllowed s.pc 4 then
    match s.memRead s.pc 4 with
    | some w => .ok w
    | none => .error (.fetchUnmapped s.pc)
  else .error (.fetchMisaligned s.pc)

/-- The refusal of a word that is no instruction (30 R91, R92). -/
def refusalOf (w : Word) : DecodeError → Refusal
  | .unlisted => .unlistedWord w
  | .reservedBits => .reservedBitsSet w

/-- Whether every general register that an instruction names is implemented (`NGPR`, 10 R20, 92 D4). -/
def gprsImplemented (cfg : Config) (i : Instr) : Bool := i.registers.all fun r => decide (r.toNat < cfg.numGprs)

/-- The instruction at the program counter, under the machine's `reserved_bits_policy` and `NGPR`. -/
def State.decodeWord (s : State) (w : Word) : Except Refusal Instr :=
  match decode s.cfg.reservedBits w with
  | .ok i => if gprsImplemented s.cfg i then .ok i else .error (.gprNotImplemented w)
  | .error e => .error (refusalOf w e)

/-- The run has ended: `pc = halt_addr` (70 R289). -/
def State.atHalt (s : State) : Bool := s.cfg.haltAddr == some s.pc

/-- Memory with the four bytes of a word at the program counter, in the machine's byte order. -/
def State.placeWord (s : State) (w : Nat) : State :=
  { s with mem := s.mem.writeBytes s.pc.toNat (splitBytes s.cfg.bigEndian 4 w) }

end Sys2Proof.Machine
end

