-- ==== Sys2Proof/Machine/Step.lean ====
section
/-! DEFINITION. One step of the core (10 R26), and the placing of an instruction where the next step fetches it. -/

namespace Sys2Proof.Machine

/-- One step of the core, in the order of 10 R26: sample the interrupt lines; take the Interrupt exception if it is
requested and enabled; end the run at `halt_addr`; fetch; look the word up; execute. `exec` does the delay slot and the
advance of `pc` (steps 6 to 8). -/
def step (s : State) : Host.Outcome State Fault Refusal :=
  let s := s.sample
  if s.interruptTaken then .next (s.takeException .interrupt none)
  else if s.atHalt then .fault .runEnded
  else match s.fetch with
    | .error f => .fault f
    | .ok w =>
      match s.decodeWord w with
      | .error r => .refused r
      | .ok i => exec i s

/-- `s` with the instruction whose bits are the low `nbits` of `w` (every higher bit 0) stored where `step` fetches its
next instruction: the four bytes at `pc`. -/
def State.withFetchWord (s : State) (nbits w : Nat) : State := s.placeWord (w % 2 ^ nbits)

end Sys2Proof.Machine
end

