-- ==== Sys2Proof/Safety.lean ====
section
/-! DEFINITION. The terms in which claims are made: the invariant of the machine, what an instruction leaves unchanged,
where control goes, and what taking an exception does as seen from outside. -/

namespace Sys2Proof.Safety

open Sys2Proof.Machine

/-! ### The invariant -/

/-- The vectors and the addresses an implementation fixes are multiples of 4 (10 R24), and the reset value of SR is one
that SR can hold. -/
def ConfigLegal (cfg : Config) : Prop :=
  (∀ (sr : Word) (e : Exception), wordAligned (vectorAddress cfg sr e) = true) ∧
  wordAligned cfg.resetPc = true ∧ cfg.resetSr &&& 0xFFFF81E2#32 = 0x00008000#32

/-- SR holds a value that no rule excludes: FO is 1, the "must stay 0" bits and the reserved bits are 0 (10 R28). -/
def SrLegal (sr : Word) : Prop := sr &&& 0xFFFF81E2#32 = 0x00008000#32

/-- What holds at reset and after every step: memory in its canonical form, `pc` and a pending jump's target word
aligned (10 R24, R25), SR legal (10 R28), PICMR's fixed bits 1 (10 R35), FPCSR's reserved bits 0 (10 R32). -/
def Inv (s : State) : Prop :=
  ConfigLegal s.cfg ∧ s.mem.wf = true ∧ wordAligned s.pc = true ∧
  (∀ target, s.ds = some target → wordAligned target = true) ∧
  SrLegal s.sr ∧ s.picmr &&& 3#32 = 3#32 ∧ s.fpcsr &&& 0xFFFFF000#32 = 0#32

/-! ### Frames: what stays as it was -/

/-- Every general register but those named reads as before. -/
def KeepsGprBut (rs : List RegNum) (s t : State) : Prop := ∀ r, r ∉ rs → t.readGpr r = s.readGpr r

/-- Every bit of SR but the fields named is as before. -/
def KeepsSrBut (fs : List SrField) (s t : State) : Prop :=
  ∀ n, n ∉ fs.map SrField.pos → t.sr.getLsbD n = s.sr.getLsbD n

/-- The accumulator is as before. -/
def KeepsMac (s t : State) : Prop := t.machi = s.machi ∧ t.maclo = s.maclo

/-- The registers an exception saves into are as before. -/
def KeepsSaved (s t : State) : Prop := t.epcr0 = s.epcr0 ∧ t.eear0 = s.eear0 ∧ t.esr0 = s.esr0

/-- FPCSR is as before. -/
def KeepsFpcsr (s t : State) : Prop := t.fpcsr = s.fpcsr

/-- The interrupt controller's registers are as before. -/
def KeepsPic (s t : State) : Prop := t.picmr = s.picmr ∧ t.picsr = s.picsr

/-- Every special-purpose register but SR is as before. -/
def KeepsSprs (s t : State) : Prop := KeepsMac s t ∧ KeepsSaved s t ∧ KeepsFpcsr s t ∧ KeepsPic s t

/-- Every byte of memory reads as before. -/
def KeepsMemory (s t : State) : Prop := ∀ a, t.mem.readByte a = s.mem.readByte a

/-- The parameters, and what the machine is told of the interrupt lines, are as before. -/
def KeepsInputs (s t : State) : Prop :=
  t.cfg = s.cfg ∧ t.irqLines = s.irqLines ∧ t.irqInput = s.irqInput ∧ t.tick = s.tick

/-! ### Results and control -/

/-- Register `d` now reads `v`; or it is the register that reads zero whatever is written (10 R22). -/
def Receives (s t : State) (d : RegNum) (v : Word) : Prop :=
  t.readGpr d = if s.cfg.r0Hardwired = true ∧ d = 0#5 then 0#32 else v

/-- The instruction can go on: a jump is pending, or `pc + 4` is an address (10 R24). -/
def CanGoOn (s : State) : Prop := s.ds ≠ none ∨ s.pc.toNat + 4 < 0x100000000

/-- Control goes on: to the target of the jump whose delay slot this was, else to the next word (10 R26 step 8). -/
def GoesOn (s t : State) : Prop := t.ds = none ∧ t.pc = s.ds.getD (s.pc + 4)

/-- An instruction that writes register `d` only, and goes on. -/
def WritesOnly (s t : State) (d : RegNum) (v : Word) : Prop :=
  Receives s t d v ∧ KeepsGprBut [d] s t ∧ t.sr = s.sr ∧ KeepsSprs s t ∧ KeepsMemory s t ∧ KeepsInputs s t ∧
  t.draws = s.draws ∧ GoesOn s t

/-- An instruction that writes register `d`, CY and OV only, and goes on, having drawn `n` free values. -/
def WritesWithFlags (s t : State) (d : RegNum) (v : Word) (cy ov : Bool) (n : Nat) : Prop :=
  Receives s t d v ∧ t.flag .CY = cy ∧ t.flag .OV = ov ∧ KeepsGprBut [d] s t ∧ KeepsSrBut [.CY, .OV] s t ∧
  KeepsSprs s t ∧ KeepsMemory s t ∧ KeepsInputs s t ∧ t.draws = s.draws + n ∧ GoesOn s t

/-! ### Exceptions as seen from outside -/

/-- Exception `e` has been entered from `s`, SR having been `sr` and EEAR0 now being `eear` (60 R224, R226, 42 R145):
the saved registers, the new SR field by field, the cancelled jump, the handler's address. -/
def Entered (e : Exception) (s t : State) (sr eear : Word) : Prop :=
  t.esr0 = sr ∧ t.epcr0 = s.exceptionPc e ∧ t.eear0 = eear ∧
  t.flag .SM = true ∧ t.flag .IEE = false ∧ t.flag .TEE = false ∧ t.flag .DME = false ∧ t.flag .IME = false ∧
  t.flag .OVE = (getSr sr .OVE && !s.cfg.trapClearsOve) ∧ t.flag .DSX = s.ds.isSome ∧
  (∀ n, n ∉ [SrField.SM, .IEE, .TEE, .DME, .IME, .OVE, .DSX].map SrField.pos → t.sr.getLsbD n = sr.getLsbD n) ∧
  t.ds = none ∧ t.pc = vectorAddress s.cfg sr e

/-- What taking an exception leaves alone: registers, accumulator, memory, the interrupt controller, the inputs
(60 R224: "no stack is touched and no GPR is written"). -/
def EntryKeeps (s t : State) : Prop :=
  KeepsGprBut [] s t ∧ KeepsMac s t ∧ KeepsFpcsr s t ∧ KeepsPic s t ∧ KeepsMemory s t ∧ KeepsInputs s t

/-- The Range exception has been taken by an instruction that would write `v`, `cy` and `ov` and draw `n` free values:
with those writes made first under `range_commits`, with none of them otherwise (40 R105, 60 R226). -/
def RangeTaken (s t : State) (d : RegNum) (v : Word) (cy ov : Bool) (n : Nat) : Prop :=
  KeepsMac s t ∧ KeepsFpcsr s t ∧ KeepsPic s t ∧ KeepsMemory s t ∧ KeepsInputs s t ∧
  (s.cfg.rangeCommits = true →
    Entered .range s t (setSr (setSr s.sr .CY cy) .OV ov) s.eear0 ∧ Receives s t d v ∧ KeepsGprBut [d] s t ∧
      t.draws = s.draws + n) ∧
  (s.cfg.rangeCommits = false →
    Entered .range s t s.sr s.eear0 ∧ KeepsGprBut [] s t ∧ t.draws = s.draws)

/-! ### Values the rules speak of -/

/-- An integer that 32-bit two's complement represents (40 R100, 43 R161). -/
abbrev FitsSigned (v : Int) : Prop := -0x80000000 ≤ v ∧ v < 0x80000000

/-- The operands of an addition as its page names them: destination, two addends, carry-in (40 R101 to R104). -/
def additionOf (s : State) : Instr → Option (RegNum × Word × Word × Bool)
  | .add d a b => some (d, s.readGpr a, s.readGpr b, false)
  | .addc d a b => some (d, s.readGpr a, s.readGpr b, s.flag .CY)
  | .addi d a imm => some (d, s.readGpr a, imm.signExtend 32, false)
  | .addic d a imm => some (d, s.readGpr a, imm.signExtend 32, s.flag .CY)
  | _ => none

/-- The operands of a signed multiplication: destination and two factors (43 R162, R163). -/
def multiplicationOf (s : State) : Instr → Option (RegNum × Word × Word)
  | .mul d a b => some (d, s.readGpr a, s.readGpr b)
  | .muli d a imm => some (d, s.readGpr a, imm.signExtend 32)
  | _ => none

/-- The destination and the divisor of a division (41 R120, R121). -/
def divisionOf (s : State) : Instr → Option (RegNum × Word)
  | .div d _ b => some (d, s.readGpr b)
  | .divu d _ b => some (d, s.readGpr b)
  | _ => none

/-- `v` is the place, counted from 1, of the lowest set bit of `x`, or 0 where there is none (41 R122). -/
def IsFirstOne (x v : Word) : Prop :=
  (x = 0#32 ∧ v = 0#32) ∨
  ∃ i, i < 32 ∧ x.getLsbD i = true ∧ (∀ j, j < i → x.getLsbD j = false) ∧ v.toNat = i + 1

/-- `v` is the place, counted from 1, of the highest set bit of `x`, or 0 where there is none (41 R123). -/
def IsLastOne (x v : Word) : Prop :=
  (x = 0#32 ∧ v = 0#32) ∨
  ∃ i, i < 32 ∧ x.getLsbD i = true ∧ (∀ j, i < j → x.getLsbD j = false) ∧ v.toNat = i + 1

/-- The number of a special-purpose register (10 R37). -/
def sprNumberOf : Spr → Word
  | .sr => 0x0011 | .fpcsr => 0x0014 | .epcr0 => 0x0020 | .eear0 => 0x0030 | .esr0 => 0x0040
  | .maclo => 0x2801 | .machi => 0x2802 | .picmr => 0x4800 | .picsr => 0x4802

/-- What State holds for a special-purpose register. -/
def heldSpr (s : State) : Spr → Word
  | .sr => s.sr | .fpcsr => s.fpcsr | .epcr0 => s.epcr0 | .eear0 => s.eear0 | .esr0 => s.esr0
  | .maclo => s.maclo | .machi => s.machi | .picmr => s.picmr | .picsr => s.picsr

/-- What `ReadSPR` returns: the register, but SR with FO as 1 and bits 27:17 as 0 (45 R206). -/
def SprReads (s : State) (r : Spr) (v : Word) : Prop :=
  match r with
  | .sr => ∀ n, n < 32 → v.getLsbD n = if n = 15 then true else if 17 ≤ n ∧ n ≤ 27 then false else s.sr.getLsbD n
  | _ => v = heldSpr s r

/-- What a bit of SR is after `v` is written to SR: bits 14:0 of `v`, FO 1, every higher bit 0 (45 R205, R206). -/
def SrHasWritten (t : State) (v : Word) : Prop :=
  ∀ n, n < 32 → t.sr.getLsbD n = if n < 15 then v.getLsbD n else decide (n = 15)

/-- The lines whose level the latch lets in at this step (60 R242). -/
def LatchedIn (s : State) (n : Nat) : Bool :=
  s.irqLines.getLsbD n && (!s.cfg.picMaskBeforeLatch || s.picmr.getLsbD n)

/-- What a special-purpose register holds after `WriteSPR(n, v)`, bit by bit (45 R206, 10 R35, 60 R243). -/
def SprHasWritten (s t : State) (r : Spr) (v : Word) : Prop :=
  match r with
  | .sr => SrHasWritten t v
  | .fpcsr => ∀ n, n < 32 → t.fpcsr.getLsbD n = (decide (n < 12) && v.getLsbD n)
  | .picmr => ∀ n, n < 32 → t.picmr.getLsbD n = (decide (n < 2) || v.getLsbD n)
  | .picsr => ∀ n, n < 32 → t.picsr.getLsbD n = (v.getLsbD n || LatchedIn s n)
  | _ => heldSpr t r = v

/-- The bits of SR that "must stay 0" (10 R28). -/
def mustStayZeroBits : List Nat := [1, 5, 6, 7, 8, 16, 28, 29, 30, 31]

/-- A value that SR may be given: no "must stay 0" bit is set (10 R28). -/
def SrWritable (v : Word) : Prop := ∀ n ∈ mustStayZeroBits, v.getLsbD n = false

/-- The write of `v` to the register has an effect: SR takes it, and PICSR takes a 1 to a clear bit (10 R28, 60 R243). -/
def SprWritable (s : State) (r : Spr) (v : Word) : Prop :=
  (r = .sr → SrWritable v) ∧
  (r = .picsr → s.cfg.picsrWriteOne = .set ∨ ∀ n, n < 32 → v.getLsbD n = true → s.picsr.getLsbD n = true)

/-! ### Runs -/

/-- A run of `k` steps that neither faults nor is refused. -/
def RunsFor (k : Nat) (s : State) : Prop := ∃ t, Sys2Proof.core.run k s = .next t

end Sys2Proof.Safety
end

