-- ==== Sys2Proof/Certificates/Slice0/Obligations.lean ====
section
/-! DEFINITION. The statements for the provers, file by file of spec/. Each docstring names the rule it formalises. -/

open Sys2Proof Sys2Proof.Machine Sys2Proof.Safety

/-! ### Encoding (30, 45) -/

/-- Decoding the canonical word of an instruction gives the instruction, under both policies, with every operand at
every value its field admits (30 R81 to R91, 45 R201 to R205). The five companion rows are general knowledge in the
spec. -/
def Obligations.DecodeOfEncode : Prop :=
  ∀ (policy : ReservedBits) (i : Instr), decode policy (encode i) = .ok i

/-- A word that decodes with reserved bits refused is the canonical word of its instruction: no two words of the model
are one instruction, and no bit of the word is dropped (30 R90, R91). The policy `refuse` is the spec's decision D2.
-/
def Obligations.EncodeOfDecode : Prop :=
  ∀ (w : Word) (i : Instr), decode .refuse w = .ok i → encode i = w

/-- "The rows of rule R90 are pairwise disjoint under their masks" (30 R96), the companion rows included: a word is
accepted by at most one row. R96 is an inference the spec marks as derived from R90. -/
def Obligations.AtMostOneRowAccepts : Prop :=
  ∀ (w : Word) (j k : Fin opcodeRows.length),
    opcodeRows[j].accepts w = true → opcodeRows[k].accepts w = true → j = k

/-- Under `refuse` a step at a word of a row with a reserved bit set is refused; under `ignore` it executes as the
row's instruction; and a canonical word is a word of a row with every reserved bit 0 (30 R91). The policy is the
spec's decision D2. An instruction that names a register which `NGPR` leaves out is StepRunsDecodedInstruction's. -/
def Obligations.ReservedBitsPolicyDecides : Prop :=
  (∀ (s : State) (w : Word) (k : Fin opcodeRows.length),
    s.sample.interruptTaken = false → s.cfg.haltAddr ≠ some s.pc → s.sample.fetch = .ok w →
    opcodeRows[k].accepts w = true → w &&& opcodeRows[k].reserved ≠ 0#32 →
      (s.cfg.reservedBits = .refuse → step s = .refused (.reservedBitsSet w)) ∧
      (s.cfg.reservedBits = .ignore → (∀ r ∈ (opcodeRows[k].build w).registers, r.toNat < s.cfg.numGprs) →
        step s = exec (opcodeRows[k].build w) s.sample)) ∧
  (∀ i : Instr, ∃ k : Fin opcodeRows.length,
    opcodeRows[k].accepts (encode i) = true ∧ encode i &&& opcodeRows[k].reserved = 0#32)

/-- A step at a word that no row accepts is refused; it takes no exception (30 R92). The refusal is the spec's
decision D1. -/
def Obligations.UnlistedWordRefused : Prop :=
  ∀ (s : State) (w : Word),
    s.sample.interruptTaken = false → s.cfg.haltAddr ≠ some s.pc → s.sample.fetch = .ok w →
    (∀ k : Fin opcodeRows.length, opcodeRows[k].accepts w = false) → step s = .refused (.unlistedWord w)

/-- Words that the spec writes out decode to the instructions it writes beside them (40 to 45, the examples). The
policy is `refuse` (decision D2). -/
def Obligations.SpecWordsDecode : Prop :=
  decode .refuse 0xE0A32000#32 = .ok (.add 5 3 4) ∧ decode .refuse 0x9C63FFFF#32 = .ok (.addi 3 3 0xFFFF) ∧
  decode .refuse 0xE0A32309#32 = .ok (.div 5 3 4) ∧ decode .refuse 0xE083010F#32 = .ok (.fl1 4 3) ∧
  decode .refuse 0x44004800#32 = .ok (.jr 9) ∧ decode .refuse 0x4C03FFFE#32 = .ok (.maci 3 0xFFFE) ∧
  decode .refuse 0xC8A32007#32 = .ok (.lfMaddS 5 3 4) ∧ decode .refuse 0xC1201800#32 = .ok (.mtspr 0 3 0x4800)

/-! ### The step (10 R26, 20, 60 R241 to R245, 70 R289) -/

/-- Where no interrupt is taken and the run has not ended, a step at a word that decodes to an instruction is that
instruction's execution after the sampling of the lines; it is refused where the instruction names, or as `l.jalr`
writes, a general register that `NGPR` leaves out. `exec` does the advance of `pc` and the delay slot; the sampling is
stated by SamplingLatchesLines (10 R26, R20). The order of the step is the spec's arrangement; the refusal is the
model's choice (log entry 32), and with 32 registers, the spec's value, no instruction meets it. -/
def Obligations.StepRunsDecodedInstruction : Prop :=
  ∀ (s : State) (w : Word) (i : Instr),
    s.sample.interruptTaken = false → s.cfg.haltAddr ≠ some s.pc → s.sample.fetch = .ok w →
    decode s.cfg.reservedBits w = .ok i →
    ((∀ r ∈ i.registers, r.toNat < s.cfg.numGprs) → step s = exec i s.sample) ∧
    ((∃ r ∈ i.registers, s.cfg.numGprs ≤ r.toNat) → step s = .refused (.gprNotImplemented w)) ∧
    (s.cfg.numGprs = 32 → ∀ r ∈ i.registers, r.toNat < s.cfg.numGprs)

/-- At the start of a step, where there is a PIC, each line is sampled into PICSR: a bit of PICSR is set where the
line is asserted and, with the mask before the latch, unmasked; a set bit stays set. Without a PIC PICSR keeps its
value, which is the model's reading of 60 R240 (log entry 28, DEDUCED and DESIGN CHOICE). Either way nothing but PICSR
and the model's own record of the lines changes. The level sampled is the next one given, and after the last one given
a free value (60 R240 to R242). The mask before the latch is the spec's decision D25, the free lines D35; the record
of the lines is the model's (log entry 8). -/
def Obligations.SamplingLatchesLines : Prop :=
  ∀ (s : State) (n : Nat), n < 32 →
    (s.cfg.picPresent = true →
      s.sample.picsr.getLsbD n = (s.picsr.getLsbD n ||
        (s.sample.irqLines.getLsbD n && (!s.cfg.picMaskBeforeLatch || s.picmr.getLsbD n)))) ∧
    (s.cfg.picPresent = false → s.sample.picsr = s.picsr) ∧
    (∀ level rest, s.irqInput = level :: rest → s.sample.irqLines = level ∧ s.sample.irqInput = rest) ∧
    (s.irqInput = [] → s.sample.irqLines = Config.irq s.tick) ∧
    s.sample = { s with picsr := s.sample.picsr, irqLines := s.sample.irqLines, irqInput := s.irqInput.tail,
                        tick := s.tick + 1 }

/-- The Interrupt exception is taken at an instruction boundary exactly when there is a PIC, SR.IEE is 1 and the
request stands: a latched bit, which must also be unmasked where the mask is not before the latch (60 R245). The
request and its enable are the spec's decision D27. -/
def Obligations.InterruptTakenExactlyWhen : Prop :=
  ∀ s : State, s.interruptTaken = true ↔
    s.cfg.picPresent = true ∧ s.flag .IEE = true ∧
    ∃ n, n < 32 ∧ s.picsr.getLsbD n = true ∧ (s.cfg.picMaskBeforeLatch = false → s.picmr.getLsbD n = true)

/-- A step at which the Interrupt exception is taken executes no instruction: it enters the handler, EPCR0 recording
the next instruction, or the jump whose delay slot it is (60 R224, R226, R245, 42 R145). The request is the spec's
decision D27; trap entry is PRESUMED (log entries 21 and 22: general knowledge in the spec, D19, D20). -/
def Obligations.StepTakesInterrupt : Prop :=
  ∀ s : State, s.sample.interruptTaken = true →
    ∃ t, step s = .next t ∧ Entered .interrupt s.sample t s.sr s.eear0 ∧ EntryKeeps s.sample t ∧
      t.epcr0 = (if s.ds = none then s.pc else s.pc - 4) ∧ t.draws = s.draws

/-- The four bytes at an aligned `pc` are fetched as one word, the byte at the lowest address the most significant
where `big_endian` holds and the least significant otherwise (20 R62, R63). The byte order is the spec's decision D7.
-/
def Obligations.FetchReadsFourBytes : Prop :=
  ∀ (s : State) (b0 b1 b2 b3 : Byte), wordAligned s.pc = true →
    s.mem.readByte s.pc.toNat = some b0 → s.mem.readByte (s.pc.toNat + 1) = some b1 →
    s.mem.readByte (s.pc.toNat + 2) = some b2 → s.mem.readByte (s.pc.toNat + 3) = some b3 →
    s.fetch = .ok (if s.cfg.bigEndian then b0 ++ b1 ++ b2 ++ b3 else b3 ++ b2 ++ b1 ++ b0)

/-- A fetch from an aligned address where memory does not hold all four bytes has no step: the core is stuck (20 R62).
That the core is stuck there is the spec's decision D6. -/
def Obligations.FetchFromNothingIsStuck : Prop :=
  ∀ (s : State) (k : Nat), wordAligned s.pc = true → k < 4 → s.mem.readByte (s.pc.toNat + k) = none →
    s.sample.interruptTaken = false → s.cfg.haltAddr ≠ some s.pc → step s = .fault (.fetchUnmapped s.pc)

/-- A run has ended exactly when, at the start of a step with no interrupt taken, `pc = halt_addr`; with no
`halt_addr` no run ends (70 R289). `halt_addr` is the spec's decision D32. -/
def Obligations.RunEndsExactlyAtHaltAddr : Prop :=
  ∀ s : State,
    (step s = .fault .runEnded ↔ s.sample.interruptTaken = false ∧ s.cfg.haltAddr = some s.pc) ∧
    (s.cfg.haltAddr = none → step s ≠ .fault .runEnded)

/-- A word placed where the next step fetches is the word that is fetched, in either byte order, and nothing but the
four bytes at `pc` changes (20 R62 to R64). The placing is the model's stand-in for the loading of a program (log
entry 25). -/
def Obligations.PlacedWordIsFetched : Prop :=
  ∀ (s : State) (w : Word), wordAligned s.pc = true →
    (s.withFetchWord 32 w.toNat).fetch = .ok w ∧
    (∀ a, (a < s.pc.toNat ∨ s.pc.toNat + 4 ≤ a) →
      (s.withFetchWord 32 w.toNat).mem.readByte a = s.mem.readByte a) ∧
    s.withFetchWord 32 w.toNat = { s with mem := (s.withFetchWord 32 w.toNat).mem }

/-! ### Reset (10 R45, 70 R280) -/

/-- What the spec says reset leaves: PICMR 3, PICSR 0, no pending jump, `pc` and SR at their parameters, which by default
are 0x100 and 0x8001 (10 R45; all but PICMR are the spec's own decision D29). -/
def Obligations.ResetLeavesSpecValues : Prop :=
  (∀ cfg : Config, (State.resetWith cfg).picmr = 0x00000003#32 ∧ (State.resetWith cfg).picsr = 0#32 ∧
    (State.resetWith cfg).ds = none ∧ (State.resetWith cfg).pc = cfg.resetPc ∧
    (State.resetWith cfg).sr = cfg.resetSr) ∧
  State.reset.pc = 0x00000100#32 ∧ State.reset.sr = 0x00008001#32

/-- THE MODEL'S CHOICE (log entries 4 and 5), not a rule of the spec: every register whose reset value 10 R45 leaves
unspecified reads 0 after reset. -/
def Obligations.ResetRegistersReadZeroByChoice : Prop :=
  ∀ cfg : Config, (∀ r, (State.resetWith cfg).readGpr r = 0#32) ∧
    (State.resetWith cfg).machi = 0#32 ∧ (State.resetWith cfg).maclo = 0#32 ∧
    (State.resetWith cfg).epcr0 = 0#32 ∧ (State.resetWith cfg).eear0 = 0#32 ∧
    (State.resetWith cfg).esr0 = 0#32 ∧ (State.resetWith cfg).fpcsr = 0#32

/-! ### Whole-machine rules -/

/-- The reset state, with the default parameters and with any legal ones, meets the invariant. The reset values of SR
and pc are the spec's decision D29, that of FPCSR the model's (log entry 5). -/
def Obligations.ResetMeetsInvariant : Prop :=
  Inv State.reset ∧ ∀ cfg : Config, ConfigLegal cfg → Inv (State.resetWith cfg)

/-- Every step keeps the invariant: memory canonical, `pc` and a pending target word aligned (10 R24, R25), SR a value
that no rule excludes (10 R28), PICMR's fixed bits 1 (10 R35), FPCSR's reserved bits 0 (10 R32, 45 R206). The SR bits
are general knowledge in the spec, what a write leaves in SR its decision D36, the canonical form of memory the
model's (log entry 25). -/
def Obligations.StepKeepsInvariant : Prop :=
  ∀ s t : State, Inv s → step s = .next t → Inv t

/-- No step changes memory or a parameter: program text cannot change during a run (20 R74, 00 R12). The spec marks
this as its decision D31. -/
def Obligations.StepKeepsMemoryAndParameters : Prop :=
  ∀ s t : State, step s = .next t → KeepsMemory s t ∧ t.mem = s.mem ∧ t.cfg = s.cfg

/-- A bit of PICSR, once 1, stays 1 through a step unless the step executes an `l.mtspr` to PICSR that writes 0 to it
(60 R242, R243). The register number is general knowledge in the spec; the effect of writing 1 its decision D26. -/
def Obligations.LatchedBitStays : Prop :=
  ∀ (s t : State) (n : Nat), step s = .next t → s.picsr.getLsbD n = true →
    t.picsr.getLsbD n = true ∨
    ∃ w a b imm, s.sample.fetch = .ok w ∧ decode s.cfg.reservedBits w = .ok (.mtspr a b imm) ∧
      s.readGpr a ||| imm.setWidth 32 = 0x4802#32 ∧ (s.readGpr b).getLsbD n = false

/-- Supervisor mode is entered only by an exception: a step from user mode to supervisor mode ends at the handler of
an exception, interrupts off, ESR0 telling that it came from user mode (60 R224, R235). Trap entry is PRESUMED (log
entries 21 and 22: general knowledge in the spec, D19, D20). -/
def Obligations.SupervisorEnteredOnlyByException : Prop :=
  ∀ s t : State, step s = .next t → s.flag .SM = false → t.flag .SM = true →
    getSr t.esr0 .SM = false ∧ t.flag .IEE = false ∧ t.ds = none ∧
    ∃ e : Exception, t.pc = vectorAddress s.cfg t.esr0 e

/-- User mode is entered only by `l.rfe` with ESR0.SM = 0 or by `l.mtspr` to SR clearing SM (60 R235). The companion
instructions are general knowledge in the spec. -/
def Obligations.UserModeEnteredOnlyByRfeOrMtspr : Prop :=
  ∀ s t : State, step s = .next t → s.flag .SM = true → t.flag .SM = false →
    ∃ w, s.sample.fetch = .ok w ∧
      ((decode s.cfg.reservedBits w = .ok .rfe ∧ getSr s.esr0 .SM = false) ∨
       ∃ a b imm, decode s.cfg.reservedBits w = .ok (.mtspr a b imm) ∧
         s.readGpr a ||| imm.setWidth 32 = 0x0011#32 ∧ getSr (s.readGpr b) .SM = false)

/-- What an instruction executed in user mode may change of the special-purpose registers, all supervisor-level by
60 R235: PICMR and PICSR never; MACHI and MACLO only by `l.maci`; FPCSR only by `lf.madd.s`, and of it only the flags,
bits 11:3; of SR CY and OV only, and EPCR0, EEAR0, ESR0 not at all, unless it takes an exception, when they are what
trap entry leaves, SR before it differing in CY and OV only (60 R224, R235). The refusal of privileged instructions is
the spec's decision D23; trap entry is PRESUMED (log entries 21 and 22: general knowledge in the spec, D19, D20). -/
def Obligations.UserModeKeepsSupervisorState : Prop :=
  ∀ (i : Instr) (s t : State), exec i s = .next t → s.flag .SM = false →
    KeepsPic s t ∧ (KeepsMac s t ∨ ∃ a imm, i = .maci a imm) ∧ (KeepsFpcsr s t ∨ ∃ d a b, i = .lfMaddS d a b) ∧
    (∀ n, n < 3 ∨ 12 ≤ n → t.fpcsr.getLsbD n = s.fpcsr.getLsbD n) ∧
    ((KeepsSrBut [.CY, .OV] s t ∧ KeepsSaved s t) ∨
     ∃ e sr eear, Entered e s t sr eear ∧
       ∀ n, n ∉ [SrField.CY, .OV].map SrField.pos → sr.getLsbD n = s.sr.getLsbD n)

/-- What an instruction does in user mode does not depend on EPCR0, EEAR0, ESR0, PICMR, PICSR or the sampled lines: with
other contents of them it goes on in the same way, to a state that differs in those six fields only, PICMR, PICSR and
the lines being still the other contents. (It does depend on SR, FPCSR, MACHI and MACLO.) (60 R235, 45 R207.) The
refusal of privileged instructions is the spec's decision D23; that a user-mode instruction reads none of the six rests
on trap entry as PRESUMED (log entries 21 and 22: general knowledge in the spec, D19, D20). -/
def Obligations.UserModeCannotReadSupervisorState : Prop :=
  ∀ (i : Instr) (s t : State) (epcr eear esr mask status lines : Word),
    s.flag .SM = false → exec i s = .next t →
    ∃ epcr' eear' esr',
      exec i { s with epcr0 := epcr, eear0 := eear, esr0 := esr, picmr := mask, picsr := status, irqLines := lines } =
        .next { t with epcr0 := epcr', eear0 := eear', esr0 := esr', picmr := mask, picsr := status,
                       irqLines := lines }

/-- The additions, divisions, bit searches, multiplies and `l.xori` touch no memory, no accumulator, no FPCSR, no
interrupt controller and no general register but rD, and of SR only CY and OV (the bit searches and `l.xori` nothing
of SR), but for what trap entry changes; `l.maci` writes only MACHI and MACLO (40 R106, 41 R125, 43 R167). The three
rules are inferences the spec marks as derived; trap entry is PRESUMED (log entries 21 and 22: general knowledge in
the spec, D19, D20). -/
def Obligations.ArithmeticTouchesNothingElse : Prop :=
  (∀ (i : Instr) (d : RegNum) (s t : State),
    (((additionOf s i).map (·.1) = some d ∨ (multiplicationOf s i).map (·.1) = some d ∨
        (divisionOf s i).map (·.1) = some d ∨ ∃ a b, i = .mulu d a b) →
      exec i s = .next t →
        KeepsGprBut [d] s t ∧ KeepsMac s t ∧ KeepsFpcsr s t ∧ KeepsPic s t ∧ KeepsMemory s t ∧ KeepsInputs s t ∧
        ((KeepsSrBut [.CY, .OV] s t ∧ KeepsSaved s t) ∨
         ∃ sr, Entered .range s t sr s.eear0 ∧
           ∀ n, n ∉ [SrField.CY, .OV].map SrField.pos → sr.getLsbD n = s.sr.getLsbD n))) ∧
  (∀ (i : Instr) (d a : RegNum) (s t : State),
    ((i = .ff1 d a ∨ i = .fl1 d a ∨ ∃ imm, i = .xori d a imm) → exec i s = .next t →
      KeepsGprBut [d] s t ∧ t.sr = s.sr ∧ KeepsSprs s t ∧ KeepsMemory s t ∧ KeepsInputs s t)) ∧
  (∀ (a : RegNum) (imm : Imm16) (s t : State), exec (.maci a imm) s = .next t →
    KeepsGprBut [] s t ∧ t.sr = s.sr ∧ KeepsSaved s t ∧ KeepsFpcsr s t ∧ KeepsPic s t ∧ KeepsMemory s t ∧
    KeepsInputs s t)

/-! ### Exceptions (60) -/

/-- EPCR0 and the vector of each exception: in a delay slot the jump, else the instruction, or under `fp_epc_next` the
one after it for Floating Point; with the default parameters the vectors are 0x600 to 0xD00, at 0xF0000000 under
SR.EPH (60 R222, R226). All are PRESUMED (log entries 21 and 22): the vectors are general knowledge in the spec (D18),
EPCR0 its decision D20. -/
def Obligations.ExceptionAddresses : Prop :=
  (∀ (s : State) (e : Exception), s.ds ≠ none → s.exceptionPc e = s.pc - 4) ∧
  (∀ (s : State) (e : Exception), s.ds = none → e ≠ .floatingPoint → s.exceptionPc e = s.pc) ∧
  (∀ s : State, s.ds = none →
    s.exceptionPc .floatingPoint = if s.cfg.fpEpcNext then s.pc + 4 else s.pc) ∧
  (∀ (sr base : Word), base = (if sr.getLsbD 14 then 0xF0000000#32 else 0x00000000#32) →
    vectorAddress defaultConfig sr .align = base + 0x600 ∧ vectorAddress defaultConfig sr .illegal = base + 0x700 ∧
    vectorAddress defaultConfig sr .interrupt = base + 0x800 ∧ vectorAddress defaultConfig sr .range = base + 0xB00 ∧
    vectorAddress defaultConfig sr .floatingPoint = base + 0xD00)

/-- An interrupt taken and returned from at once by `l.rfe` is invisible to the interrupted program: SR is as it was,
and execution resumes at the instruction, or at the jump whose delay slot it was (60 R224, R226, R232, 42 R145, 45
R205). The return is general knowledge in the spec (D22, D36, log entry 37); trap entry is PRESUMED (log entries 21
and 22: general knowledge in the spec, D19, D20). -/
def Obligations.TrapThenReturnRestores : Prop :=
  ∀ s : State, Inv s → s.cfg.companionSet = true →
    ∃ t, exec .rfe (s.takeException .interrupt none) = .next t ∧
      t.sr = s.sr ∧ t.pc = (if s.ds = none then s.pc else s.pc - 4) ∧ t.ds = none ∧
      KeepsGprBut [] s t ∧ KeepsMac s t ∧ KeepsFpcsr s t ∧ KeepsPic s t ∧ t.eear0 = s.eear0 ∧ KeepsMemory s t ∧
      KeepsInputs s t ∧ t.draws = s.draws

/-! ### Additions (40) -/

/-- `l.add`: rD receives the sum modulo 2^32, CY the carry out of bit 31, OV whether the signed sum does not fit;
nothing else changes and control goes on, unless it overflows with OVE set (40 R100, R101). Carry and overflow are the
spec's decision D9. -/
def Obligations.AddCompletes : Prop :=
  ∀ (s : State) (d a b : RegNum) (x y : Word), s.readGpr a = x → s.readGpr b = y → CanGoOn s →
    (s.flag .OVE = true → FitsSigned (x.toInt + y.toInt)) →
    ∃ t, exec (.add d a b) s = .next t ∧
      WritesWithFlags s t d (x + y) (decide (0x100000000 ≤ x.toNat + y.toNat))
        (decide ¬FitsSigned (x.toInt + y.toInt)) 0

/-- `l.addc`: as `l.add` with CY added in; the flags are those of the three-term sum (40 R100, R102). Carry and
overflow are the spec's decision D9. -/
def Obligations.AddcCompletes : Prop :=
  ∀ (s : State) (d a b : RegNum) (x y : Word) (c : Nat), s.readGpr a = x → s.readGpr b = y →
    c = (if s.flag .CY then 1 else 0) → CanGoOn s →
    (s.flag .OVE = true → FitsSigned (x.toInt + y.toInt + c)) →
    ∃ t, exec (.addc d a b) s = .next t ∧
      WritesWithFlags s t d (x + y + BitVec.ofNat 32 c) (decide (0x100000000 ≤ x.toNat + y.toNat + c))
        (decide ¬FitsSigned (x.toInt + y.toInt + c)) 0

/-- `l.addi`: as `l.add` with the sign-extended immediate (40 R100, R103). Carry and overflow are the spec's decision
D9. -/
def Obligations.AddiCompletes : Prop :=
  ∀ (s : State) (d a : RegNum) (imm : Imm16) (x y : Word), s.readGpr a = x → imm.signExtend 32 = y → CanGoOn s →
    (s.flag .OVE = true → FitsSigned (x.toInt + imm.toInt)) →
    ∃ t, exec (.addi d a imm) s = .next t ∧
      WritesWithFlags s t d (x + y) (decide (0x100000000 ≤ x.toNat + y.toNat))
        (decide ¬FitsSigned (x.toInt + imm.toInt)) 0

/-- `l.addic`: as `l.addc` with the sign-extended immediate (40 R100, R104). Carry and overflow are the spec's
decision D9. -/
def Obligations.AddicCompletes : Prop :=
  ∀ (s : State) (d a : RegNum) (imm : Imm16) (x y : Word) (c : Nat), s.readGpr a = x → imm.signExtend 32 = y →
    c = (if s.flag .CY then 1 else 0) → CanGoOn s →
    (s.flag .OVE = true → FitsSigned (x.toInt + imm.toInt + c)) →
    ∃ t, exec (.addic d a imm) s = .next t ∧
      WritesWithFlags s t d (x + y + BitVec.ofNat 32 c) (decide (0x100000000 ≤ x.toNat + y.toNat + c))
        (decide ¬FitsSigned (x.toInt + imm.toInt + c)) 0

/-! ### The Range exception (40 R105, 41 R120, R121, 43 R162) -/

/-- With OVE set before, an addition whose signed sum does not fit takes the Range exception; rD and the flags are
written first under `range_commits`, not at all otherwise (40 R100, R105, 60 R224, R226). Carry and overflow are the
spec's decision D9, `range_commits` its decision D10 (log entry 13); trap entry is PRESUMED (log entries 21 and 22:
general knowledge in the spec, D19, D20). -/
def Obligations.AdditionTakesRange : Prop :=
  ∀ (i : Instr) (s : State) (d : RegNum) (x y : Word) (c : Bool), additionOf s i = some (d, x, y, c) →
    s.flag .OVE = true → ¬FitsSigned (x.toInt + y.toInt + carryIn c) →
    ∃ t, exec i s = .next t ∧
      RangeTaken s t d (x + y + BitVec.ofNat 32 (carryIn c))
        (decide (0x100000000 ≤ x.toNat + y.toNat + carryIn c)) true 0

/-- With OVE set before, `l.mul` and `l.muli` of factors whose signed product does not fit take the Range exception;
rD and the flags are written first under `range_commits`, not at all otherwise (43 R161 to R163, 40 R105, 60 R224,
R226). `range_commits` is the spec's decision D10 (log entry 13), `mul_carry` its decision D11 (log entry 11); trap
entry is PRESUMED (log entries 21 and 22: general knowledge in the spec, D19, D20). -/
def Obligations.MultiplicationTakesRange : Prop :=
  ∀ (i : Instr) (s : State) (d : RegNum) (x y : Word), multiplicationOf s i = some (d, x, y) →
    s.flag .OVE = true → ¬FitsSigned (x.toInt * y.toInt) →
    ∃ t cy n, exec i s = .next t ∧ RangeTaken s t d (x * y) cy true n ∧
      (s.cfg.mulCarry = .ucarry → cy = decide (0x100000000 ≤ x.toNat * y.toNat) ∧ n = 0)

/-- With OVE set before, a division by zero takes the Range exception; under `range_commits` CY 1, OV 0 and a free
value in rD are written first, otherwise nothing is (41 R120, R121, R124, 40 R105, 60 R224, R226). The free quotient
is the spec's decision D12 (log entry 10), `range_commits` its decision D10 (log entry 13); trap entry is PRESUMED
(log entries 21 and 22: general knowledge in the spec, D19, D20). -/
def Obligations.DivisionByZeroTakesRange : Prop :=
  ∀ (i : Instr) (s : State) (d : RegNum), divisionOf s i = some (d, 0#32) → s.flag .OVE = true →
    ∃ t v, exec i s = .next t ∧ RangeTaken s t d v true false 1

/-! ### Divisions and bit searches (41) -/

/-- `l.div`: rD receives the signed quotient truncated toward zero, CY and OV are 0, where the divisor is not zero and
the quotient is not 2^31 (41 R120, R124). Truncation toward zero is the spec's decision D12. -/
def Obligations.DivCompletes : Prop :=
  ∀ (s : State) (d a b : RegNum) (x y : Word), s.readGpr a = x → s.readGpr b = y → CanGoOn s → y ≠ 0#32 →
    ¬(x = 0x80000000#32 ∧ y = 0xFFFFFFFF#32) →
    ∃ t v, exec (.div d a b) s = .next t ∧ v.toInt = x.toInt.tdiv y.toInt ∧ WritesWithFlags s t d v false false 0

/-- `l.divu`: rD receives the unsigned quotient, CY and OV are 0, where the divisor is not zero (41 R121, R124). -/
def Obligations.DivuCompletes : Prop :=
  ∀ (s : State) (d a b : RegNum) (x y : Word), s.readGpr a = x → s.readGpr b = y → CanGoOn s → y ≠ 0#32 →
    ∃ t v, exec (.divu d a b) s = .next t ∧ v.toNat = x.toNat / y.toNat ∧ WritesWithFlags s t d v false false 0

/-- Where the spec states no quotient (a zero divisor without OVE; `l.div` of 0x80000000 by 0xFFFFFFFF) the division
still completes: rD alone is a free value, CY tells the zero divisor, OV is 0, one free value is drawn (41 R124). The
free value is the spec's decision D12 (log entry 10). -/
def Obligations.OpenQuotientCompletes : Prop :=
  (∀ (i : Instr) (s : State) (d : RegNum), divisionOf s i = some (d, 0#32) → CanGoOn s → s.flag .OVE = false →
    ∃ t v, exec i s = .next t ∧ WritesWithFlags s t d v true false 1) ∧
  (∀ (s : State) (d a b : RegNum), s.readGpr a = 0x80000000#32 → s.readGpr b = 0xFFFFFFFF#32 → CanGoOn s →
    ∃ t v, exec (.div d a b) s = .next t ∧ WritesWithFlags s t d v false false 1)

/-- `l.ff1` and `l.fl1`: rD receives the place, counted from 1, of the lowest and of the highest set bit of rA, or 0;
nothing else changes and no exception is raised. Format RA, op2 0 and 1, op3 0xF (41 R122, R123, 90 C4). -/
def Obligations.BitSearchesComplete : Prop :=
  ∀ (s : State) (d a : RegNum) (x : Word), s.readGpr a = x → CanGoOn s →
    encode (.ff1 d a) = 0x38#6 ++ d ++ a ++ 0#5 ++ 0#1 ++ 0#2 ++ 0#4 ++ 0xF#4 ∧
    encode (.fl1 d a) = 0x38#6 ++ d ++ a ++ 0#5 ++ 0#1 ++ 1#2 ++ 0#4 ++ 0xF#4 ∧
    (∃ t v, exec (.ff1 d a) s = .next t ∧ IsFirstOne x v ∧ WritesOnly s t d v) ∧
    (∃ t v, exec (.fl1 d a) s = .next t ∧ IsLastOne x v ∧ WritesOnly s t d v)

/-! ### Jumps (42) -/

/-- `l.jr` outside a delay slot to an aligned address: the next instruction is the one after it, in the delay slot of a
jump to rB; nothing else changes (42 R140, R142). -/
def Obligations.JrCompletes : Prop :=
  ∀ (s : State) (b : RegNum) (x : Word), s.readGpr b = x → s.ds = none → s.pc.toNat + 4 < 0x100000000 →
    x.extractLsb' 0 2 = 0#2 →
    ∃ t, exec (.jr b) s = .next t ∧ t.pc = s.pc + 4 ∧ t.ds = some x ∧ KeepsGprBut [] s t ∧ t.sr = s.sr ∧
      KeepsSprs s t ∧ KeepsMemory s t ∧ KeepsInputs s t ∧ t.draws = s.draws

/-- `l.jalr` of a register other than r9 likewise, and r9 receives the address of the instruction after the delay slot
(42 R140, R141). -/
def Obligations.JalrCompletes : Prop :=
  ∀ (s : State) (b : RegNum) (x : Word), s.readGpr b = x → b ≠ 9#5 → s.ds = none →
    s.pc.toNat + 4 < 0x100000000 → x.extractLsb' 0 2 = 0#2 →
    ∃ t, exec (.jalr b) s = .next t ∧ t.pc = s.pc + 4 ∧ t.ds = some x ∧ t.readGpr 9 = s.pc + 8 ∧
      KeepsGprBut [9#5] s t ∧ t.sr = s.sr ∧ KeepsSprs s t ∧ KeepsMemory s t ∧ KeepsInputs s t ∧
      t.draws = s.draws

/-- A jump to an address that is not word aligned takes the ALIGN exception at the jump: EEAR0 records the target (or,
under the other setting of `align_eear`, a free value), no register is written, the delay slot does not run (42 R141
to R143, 60 R224, R226). What is recorded and that nothing is written are the spec's decision D14; trap entry is
PRESUMED (log entries 21 and 22: general knowledge in the spec, D19, D20). -/
def Obligations.MisalignedJumpTakesAlign : Prop :=
  ∀ (i : Instr) (b : RegNum) (s : State) (x : Word), (i = .jr b ∨ i = .jalr b ∧ b ≠ 9#5) → s.readGpr b = x →
    s.ds = none → x.extractLsb' 0 2 ≠ 0#2 →
    ∃ t eear, exec i s = .next t ∧ Entered .align s t s.sr eear ∧ (s.cfg.alignEear = .target → eear = x) ∧
      EntryKeeps s t

/-- `l.jalr r9` takes the ILLEGAL exception, whether or not r9 is aligned: EEAR0 records `pc`, r9 is not written (42
R141, R143, 60 R224, R226, R227). The order of the tests and what is recorded are the spec's decisions D14, D21; trap
entry is PRESUMED (log entries 21 and 22: general knowledge in the spec, D19, D20). -/
def Obligations.JalrOfLinkTakesIllegal : Prop :=
  ∀ s : State, s.ds = none →
    ∃ t, exec (.jalr 9) s = .next t ∧ Entered .illegal s t s.sr s.pc ∧ EntryKeeps s t ∧ t.draws = s.draws

/-- The addresses executed are the jump, its delay slot, the target: the jump goes on to the next word with the target
pending, and whatever instruction stands there, if it goes on, ends at the target. If it raises an exception instead,
the exception is entered as from any delay slot: EPCR0 the jump, DSX set, the target forgotten. It sees the link value
that `l.jalr` wrote (42 R140, R141, R145, 60 R224, R226). The exception in the slot is general knowledge in the spec
(D20); trap entry is PRESUMED (log entries 21 and 22: general knowledge in the spec, D19, D20). -/
def Obligations.DelaySlotRunsBeforeTarget : Prop :=
  ∀ (s : State) (b : RegNum) (x : Word) (j : Instr), (j = .jr b ∨ j = .jalr b ∧ b ≠ 9#5) → s.readGpr b = x →
    s.ds = none → s.pc.toNat + 4 < 0x100000000 → x.extractLsb' 0 2 = 0#2 →
    ∃ t, exec j s = .next t ∧ t.pc = s.pc + 4 ∧ t.ds = some x ∧ (j = .jalr b → t.readGpr 9 = s.pc + 8) ∧
      ∀ (i : Instr) (u : State), exec i t = .next u →
        (u.pc = x ∧ u.ds = none) ∨ ∃ e sr eear, Entered e t u sr eear

/-! ### Multiply-accumulate, multiplies, exclusive or (43) -/

/-- `l.maci`: the product, cut to 32 bits and then sign extended, is added to MACHI:MACLO modulo 2^64; SR and the general
registers are unchanged and no exception is raised. Format AI, major opcode 0x13 (43 R160). -/
def Obligations.MaciCompletes : Prop :=
  ∀ (s : State) (a : RegNum) (imm : Imm16) (x : Word), s.readGpr a = x → s.cfg.macPresent = true → CanGoOn s →
    encode (.maci a imm) = 0x13#6 ++ 0#5 ++ a ++ imm ∧
    ∃ t, exec (.maci a imm) s = .next t ∧
      t.machi ++ t.maclo = s.machi ++ s.maclo + (x * imm.signExtend 32).signExtend 64 ∧ KeepsGprBut [] s t ∧
      t.sr = s.sr ∧ KeepsSaved s t ∧ KeepsFpcsr s t ∧ KeepsPic s t ∧ KeepsMemory s t ∧ KeepsInputs s t ∧
      t.draws = s.draws ∧ GoesOn s t

/-- `l.mul`: rD receives the product modulo 2^32, OV whether the signed product does not fit, CY by `mul_carry` (under
`draw` a free value), unless it overflows with OVE set (43 R161, R162). Carry and overflow are the spec's decision
D11. -/
def Obligations.MulCompletes : Prop :=
  ∀ (s : State) (d a b : RegNum) (x y : Word), s.readGpr a = x → s.readGpr b = y → CanGoOn s →
    (s.flag .OVE = true → FitsSigned (x.toInt * y.toInt)) →
    ∃ t cy n, exec (.mul d a b) s = .next t ∧
      WritesWithFlags s t d (x * y) cy (decide ¬FitsSigned (x.toInt * y.toInt)) n ∧
      (s.cfg.mulCarry = .ucarry → cy = decide (0x100000000 ≤ x.toNat * y.toNat) ∧ n = 0)

/-- `l.muli`: as `l.mul` with the sign-extended immediate (43 R161, R163). Carry and overflow are the spec's decision
D11. -/
def Obligations.MuliCompletes : Prop :=
  ∀ (s : State) (d a : RegNum) (imm : Imm16) (x y : Word), s.readGpr a = x → imm.signExtend 32 = y → CanGoOn s →
    (s.flag .OVE = true → FitsSigned (x.toInt * imm.toInt)) →
    ∃ t cy n, exec (.muli d a imm) s = .next t ∧
      WritesWithFlags s t d (x * y) cy (decide ¬FitsSigned (x.toInt * imm.toInt)) n ∧
      (s.cfg.mulCarry = .ucarry → cy = decide (0x100000000 ≤ x.toNat * y.toNat) ∧ n = 0)

/-- `l.mulu`: rD receives the product modulo 2^32, CY whether the unsigned product does not fit, OV is 0, and no
exception is raised whatever OVE is. Format R, op2 3, op3 0xB (43 R164). -/
def Obligations.MuluCompletes : Prop :=
  ∀ (s : State) (d a b : RegNum) (x y : Word), s.readGpr a = x → s.readGpr b = y → CanGoOn s →
    encode (.mulu d a b) = 0x38#6 ++ d ++ a ++ b ++ 0#1 ++ 3#2 ++ 0#4 ++ 0xB#4 ∧
    ∃ t, exec (.mulu d a b) s = .next t ∧
      WritesWithFlags s t d (x * y) (decide (0x100000000 ≤ x.toNat * y.toNat)) false 0

/-- `l.xori`: rD receives rA XOR the immediate, sign extended as the hardware does or zero extended as the page says,
by `xori_ext`; under sign extension the immediate -1 gives NOT (43 R165, R166, 30 R95). `xori_ext` is the spec's
decision D13. -/
def Obligations.XoriCompletes : Prop :=
  ∀ (s : State) (d a : RegNum) (imm : Imm16) (x : Word), s.readGpr a = x → CanGoOn s →
    ∃ t v, exec (.xori d a imm) s = .next t ∧ WritesOnly s t d v ∧
      (s.cfg.xoriExt = .sign → v = x ^^^ imm.signExtend 32 ∧ (imm = 0xFFFF#16 → v = ~~~x)) ∧
      (s.cfg.xoriExt = .zero → v = x ^^^ imm.setWidth 32)

/-! ### Floating point (44) -/

/-- `lf.madd.s` with the FPU present and its exception disabled: rD receives the result of the open function of rA,
rB, the old rD and the rounding mode, its flags are added to FPCSR's, nothing else changes (44 R191, R192, R194). The
open function and the flags are the spec's decision D17. -/
def Obligations.LfMaddSCompletes : Prop :=
  ∀ (s : State) (d a b : RegNum) (v : Word) (flags : FpFlags),
    Config.fpMadd32 (s.readGpr a) (s.readGpr b) (s.readGpr d) (s.fpcsr.extractLsb' 1 2) = (v, flags) →
    s.cfg.fpuPresent = true → CanGoOn s → s.fpcsr.getLsbD 0 = false →
    ∃ t, exec (.lfMaddS d a b) s = .next t ∧ Receives s t d v ∧
      (∀ n, n < 32 → t.fpcsr.getLsbD n = (s.fpcsr.getLsbD n || (decide (3 ≤ n) && flags.getLsbD (n - 3)))) ∧
      KeepsGprBut [d] s t ∧ t.sr = s.sr ∧ KeepsMac s t ∧ KeepsSaved s t ∧ KeepsPic s t ∧ KeepsMemory s t ∧
      KeepsInputs s t ∧ t.draws = s.draws ∧ GoesOn s t

/-- With FPCSR.FPEE set, `lf.madd.s` writes rD and the flags of FPCSR, and then takes the Floating Point exception exactly
when the operation sets a flag, whether or not `pc + 4` is an address; without a flag it goes on. It changes nothing
else, but what trap entry changes (44 R191, R193, 60 R224, R226). The condition is general knowledge in the spec (D17,
log entry 23); trap entry and EPCR0 are PRESUMED (log entries 21 and 22: general knowledge in the spec, D19, D20). -/
def Obligations.FloatingPointExceptionOnFlag : Prop :=
  ∀ (s : State) (d a b : RegNum) (v : Word) (flags : FpFlags),
    Config.fpMadd32 (s.readGpr a) (s.readGpr b) (s.readGpr d) (s.fpcsr.extractLsb' 1 2) = (v, flags) →
    s.cfg.fpuPresent = true → s.fpcsr.getLsbD 0 = true → flags ≠ 0#9 ∨ CanGoOn s →
    ∃ t, exec (.lfMaddS d a b) s = .next t ∧ Receives s t d v ∧ KeepsGprBut [d] s t ∧ KeepsMac s t ∧ KeepsPic s t ∧
      KeepsMemory s t ∧ KeepsInputs s t ∧ t.draws = s.draws ∧
      (∀ n, n < 32 → t.fpcsr.getLsbD n = (s.fpcsr.getLsbD n || (decide (3 ≤ n) && flags.getLsbD (n - 3)))) ∧
      (flags ≠ 0#9 → Entered .floatingPoint s t s.sr s.eear0) ∧
      (flags = 0#9 → GoesOn s t ∧ t.sr = s.sr ∧ KeepsSaved s t)

/-- `lf.madd.d` has no operation on this 32-bit implementation: the word is decoded and refused (44 R190). The refusal
is the spec's decision D16. -/
def Obligations.DoubleMultiplyAddRefused : Prop :=
  ∀ (s : State) (d a b : RegNum), exec (.lfMaddD d a b) s = .refused .doublePrecisionNotApplicable

/-! ### Companion instructions (45) -/

/-- `l.mfspr` in supervisor mode: rD receives the register whose number is rA OR K, for every register that is held
(45 R201, R206, 10 R37). The instruction and the register numbers are general knowledge in the spec. -/
def Obligations.MfsprCompletes : Prop :=
  ∀ (s : State) (d a : RegNum) (imm : Imm16) (r : Spr), s.readGpr a ||| imm.setWidth 32 = sprNumberOf r →
    s.cfg.companionSet = true → s.flag .SM = true → sprPresent s.cfg r = true → CanGoOn s →
    ∃ t v, exec (.mfspr d a imm) s = .next t ∧ SprReads s r v ∧ WritesOnly s t d v

/-- `l.mtspr` in supervisor mode: the register whose number is rA OR K receives rB as 45 R206 says for each register,
and every other register keeps its value (45 R202, R206, 10 R35, 60 R243). The instruction and the numbers are general
knowledge in the spec; SR's write is its decision D36, PICSR's D26. -/
def Obligations.MtsprCompletes : Prop :=
  ∀ (s : State) (a b : RegNum) (imm : Imm16) (r : Spr) (v : Word),
    s.readGpr a ||| imm.setWidth 32 = sprNumberOf r → s.readGpr b = v →
    s.cfg.companionSet = true → s.flag .SM = true → sprPresent s.cfg r = true → SprWritable s r v → CanGoOn s →
    ∃ t, exec (.mtspr a b imm) s = .next t ∧ SprHasWritten s t r v ∧
      (∀ q, q ≠ r → heldSpr t q = heldSpr s q) ∧ KeepsGprBut [] s t ∧ KeepsMemory s t ∧ KeepsInputs s t ∧
      t.draws = s.draws ∧ GoesOn s t

/-- `l.andi` and `l.ori`: rD receives rA AND, rA OR the zero-extended immediate; nothing else changes (45 R203, R204).
The instructions are general knowledge in the spec. -/
def Obligations.LogicalImmediatesComplete : Prop :=
  ∀ (s : State) (d a : RegNum) (imm : Imm16) (x : Word), s.readGpr a = x → s.cfg.companionSet = true → CanGoOn s →
    (∃ t, exec (.andi d a imm) s = .next t ∧ WritesOnly s t d (x &&& imm.setWidth 32)) ∧
    (∃ t, exec (.ori d a imm) s = .next t ∧ WritesOnly s t d (x ||| imm.setWidth 32))

/-- `l.rfe` in supervisor mode outside a delay slot: `pc` is EPCR0, SR is ESR0 (bits 15:0, FO forced to 1), with no
delay slot; nothing else changes (45 R205, 60 R232). The instruction is general knowledge in the spec (D22, D36). -/
def Obligations.RfeCompletes : Prop :=
  ∀ s : State, s.cfg.companionSet = true → s.flag .SM = true → s.ds = none → SrWritable s.esr0 →
    s.epcr0.extractLsb' 0 2 = 0#2 →
    ∃ t, exec .rfe s = .next t ∧ t.pc = s.epcr0 ∧ t.ds = none ∧ SrHasWritten t s.esr0 ∧ KeepsGprBut [] s t ∧
      KeepsSprs s t ∧ KeepsMemory s t ∧ KeepsInputs s t ∧ t.draws = s.draws

/-! ### Where an instruction is refused -/

/-- A control-transfer instruction in a delay slot is refused (42 R144). The refusal is the spec's decision D15. -/
def Obligations.TransferInDelaySlotRefused : Prop :=
  ∀ s : State, s.ds ≠ none →
    (∀ b, exec (.jr b) s = .refused .transferInDelaySlot) ∧ (∀ b, exec (.jalr b) s = .refused .transferInDelaySlot) ∧
    ∃ r, exec .rfe s = .refused r

/-- `l.mfspr`, `l.mtspr` and `l.rfe` are refused in user mode (45 R207). The refusal is the spec's decision D23. -/
def Obligations.PrivilegedRefusedInUserMode : Prop :=
  ∀ s : State, s.flag .SM = false → s.cfg.companionSet = true →
    (∀ d a imm, exec (.mfspr d a imm) s = .refused .userMode) ∧
    (∀ a b imm, exec (.mtspr a b imm) s = .refused .userMode) ∧ exec .rfe s = .refused .userMode

/-- `l.mfspr` and `l.mtspr` are refused for a number that no held register has; `l.mtspr` to SR and `l.rfe` for a value
that sets a "must stay 0" bit; `l.mtspr` to PICSR, under the setting `refuse`, for a 1 to a clear bit; `l.rfe` for an
EPCR0 that is not word aligned (10 R28, R37, 45 R201, R202, R205, R206, 60 R243). The refusals are the spec's decisions
D22, D24, D26, D28, D33. -/
def Obligations.SprAccessRefused : Prop :=
  ∀ s : State, s.cfg.companionSet = true → s.flag .SM = true →
    (∀ d a imm, (∀ r, sprPresent s.cfg r = true → s.readGpr a ||| imm.setWidth 32 ≠ sprNumberOf r) →
      (∃ r, exec (.mfspr d a imm) s = .refused r) ∧ ∀ b, ∃ r, exec (.mtspr a b imm) s = .refused r) ∧
    (∀ a b imm, s.readGpr a ||| imm.setWidth 32 = 0x0011#32 → ¬SrWritable (s.readGpr b) →
      exec (.mtspr a b imm) s = .refused (.srBitMustStayZero (s.readGpr b))) ∧
    (∀ a b imm n, s.readGpr a ||| imm.setWidth 32 = 0x4802#32 → s.cfg.picPresent = true →
      s.cfg.picsrWriteOne = .refuse → n < 32 → (s.readGpr b).getLsbD n = true → s.picsr.getLsbD n = false →
      exec (.mtspr a b imm) s = .refused (.picsrOneToClearBit (s.readGpr b))) ∧
    (s.ds = none → ¬SrWritable s.esr0 → exec .rfe s = .refused (.srBitMustStayZero s.esr0)) ∧
    (s.ds = none → SrWritable s.esr0 → s.epcr0.extractLsb' 0 2 ≠ 0#2 →
      exec .rfe s = .refused (.returnMisaligned s.epcr0))

/-- An instruction of a unit that the parameters say is absent is refused: `l.maci` without the MAC, `lf.madd.s` without
the FPU (the spec's default), the five companion instructions without `companion_set` (44 R191, 45 R200). The first is
the spec's decision D24, the second D17, the third D1 (log entry 30). -/
def Obligations.AbsentUnitRefused : Prop :=
  ∀ s : State,
    (s.cfg.macPresent = false → ∀ a imm, exec (.maci a imm) s = .refused .macAbsent) ∧
    (s.cfg.fpuPresent = false → ∀ d a b, exec (.lfMaddS d a b) s = .refused .fpuAbsent) ∧
    (s.cfg.companionSet = false →
      (∀ d a imm, exec (.mfspr d a imm) s = .refused .companionNotAdmitted ∧
        exec (.andi d a imm) s = .refused .companionNotAdmitted ∧
        exec (.ori d a imm) s = .refused .companionNotAdmitted) ∧
      (∀ a b imm, exec (.mtspr a b imm) s = .refused .companionNotAdmitted) ∧
      exec .rfe s = .refused .companionNotAdmitted)

/-- At 0xFFFFFFFC outside a delay slot no instruction goes on to the next word or to a delay slot: an instruction that
answers a next state there has taken an exception or returned from one (10 R24). The refusal of the wrap is the spec's
decision D8; trap entry is PRESUMED (log entries 21 and 22: general knowledge in the spec, D19, D20). -/
def Obligations.NoStepPastLastWord : Prop :=
  ∀ (i : Instr) (s t : State), s.pc = 0xFFFFFFFC#32 → s.ds = none → exec i s = .next t →
    i = .rfe ∨ ∃ e sr eear, Entered e s t sr eear
end

