-- ==== Sys2Proof/Laws/Arith.lean ====
section
/-! SUPPORT. The arithmetic of 40, 41 and 43 against the operations of bit vectors. -/

namespace Sys2Proof.Machine

theorem addResult_eq (a b : Word) (c : Bool) : addResult a b c = a + b + BitVec.ofNat 32 (carryIn c) := by
  apply BitVec.eq_of_toNat_eq
  simp [addResult, BitVec.toNat_add]

theorem mulResult_eq (a b : Word) : mulResult a b = a * b := by
  apply BitVec.eq_of_toInt_eq
  simp [mulResult, BitVec.toInt_mul]

theorem outsideSigned_iff (v : Int) : outsideSigned v = true ↔ (BitVec.ofInt 32 v).toInt ≠ v := by
  simp only [outsideSigned, Bool.or_eq_true, decide_eq_true_eq, BitVec.toInt_ofInt, Int.bmod_def, ne_eq]
  omega

/-- The signed quotient that is representable is exact (41 R120, R124). -/
theorem divSigned_toInt {a b : Word} (h : ¬(a = 0x80000000#32 ∧ b = 0xFFFFFFFF#32)) :
    (divSigned a b).toInt = a.toInt.tdiv b.toInt := by
  have ha := BitVec.le_two_mul_toInt (x := a)
  have ha' := BitVec.two_mul_toInt_lt (x := a)
  have hle : (a.toInt.tdiv b.toInt).natAbs = a.toInt.natAbs / b.toInt.natAbs := Int.natAbs_tdiv _ _
  have hdiv := Nat.div_le_self a.toInt.natAbs b.toInt.natAbs
  have hneg : a.toInt.tdiv b.toInt ≠ 0x80000000 := by
    intro he
    have hA : a.toInt.natAbs = 0x80000000 := by omega
    have ha0 : a.toInt = -0x80000000 := by omega
    have hB : b.toInt.natAbs = 1 := by
      rcases Nat.lt_trichotomy b.toInt.natAbs 1 with h1 | h1 | h1
      · have : b.toInt.natAbs = 0 := by omega
        rw [this, Nat.div_zero] at hle; omega
      · exact h1
      · have := Nat.div_lt_self (show 0 < a.toInt.natAbs by omega) h1; omega
    refine h ⟨BitVec.eq_of_toInt_eq (ha0.trans (by decide)), ?_⟩
    rcases (show b.toInt = 1 ∨ b.toInt = -1 by omega) with h1 | h1
    · rw [h1, Int.tdiv_one] at he; omega
    · exact BitVec.eq_of_toInt_eq (h1.trans (by decide))
  rw [divSigned, BitVec.toInt_ofInt, Int.bmod_def]
  omega

/-- The unsigned quotient always fits (41 R121). -/
theorem divUnsigned_toNat (a b : Word) : (divUnsigned a b).toNat = a.toNat / b.toNat := by
  simp only [divUnsigned, BitVec.toNat_ofNat]
  exact Nat.mod_eq_of_lt (lt_of_le_of_lt (Nat.div_le_self _ _) a.isLt)

end Sys2Proof.Machine
end

