-- ==== Sys2Proof/Laws/Decode.lean ====
section
/-! SUPPORT. The opcode map read row by row: no two rows share a word, so a row that accepts a word is the row the decoder
takes; and the fields of the formats read back. -/

namespace Sys2Proof

/-- Two rows share no word: on the bits that both select their patterns differ (30 R96). -/
def Row.disjoint (r q : Row) : Bool := r.mask &&& q.mask &&& (r.pattern ^^^ q.pattern) != 0#32

theorem opcodeRows_pairwise_disjoint : opcodeRows.Pairwise (fun r q => r.disjoint q = true) := by decide

theorem Row.not_accepts_of_disjoint {r q : Row} {w : Word} (h : r.disjoint q = true) (hr : r.accepts w = true) :
    q.accepts w = false := by
  rw [Bool.eq_false_iff]
  intro hq
  rw [Row.accepts, beq_iff_eq] at hr hq
  rw [Row.disjoint, bne_iff_ne, ← hr, ← hq] at h
  refine h (BitVec.eq_of_getLsbD_eq fun i hi => ?_)
  have h0 : (0#32 : Word).getLsbD i = false := BitVec.getLsbD_zero
  simp only [BitVec.getLsbD_and, BitVec.getLsbD_xor, h0]
  cases r.mask.getLsbD i <;> cases q.mask.getLsbD i <;> cases w.getLsbD i <;> rfl

/-- In a list of pairwise disjoint rows the first row that accepts a word is the only one. -/
theorem find?_of_accepts {rows : List Row} {r : Row} {w : Word}
    (hp : rows.Pairwise (fun r q => r.disjoint q = true)) (hm : r ∈ rows) (hr : r.accepts w = true) :
    rows.find? (fun r => r.accepts w) = some r := by
  induction rows with
  | nil => cases hm
  | cons q rows ih =>
    rw [List.pairwise_cons] at hp
    by_cases hq : q.accepts w = true
    · rcases List.mem_cons.mp hm with rfl | hm
      · simp [hr]
      · rw [Row.not_accepts_of_disjoint (hp.1 r hm) hq] at hr
        cases hr
    · rcases List.mem_cons.mp hm with rfl | hm
      · exact absurd hr hq
      · simpa [hq] using ih hp.2 hm

/-- The decoder's answer for a word that a row accepts (30 R90, R91). -/
theorem decode_of_accepts {r : Row} {w : Word} (policy : ReservedBits) (hm : r ∈ opcodeRows)
    (hr : r.accepts w = true) :
    decode policy w =
      if policy = .refuse ∧ w &&& r.reserved ≠ 0#32 then .error .reservedBits else .ok (r.build w) := by
  rw [decode, find?_of_accepts opcodeRows_pairwise_disjoint hm hr]

/-- What the decoder can answer: the instruction of a row that accepts the word, with no reserved bit set under the
policy `refuse`. -/
theorem decode_ok {policy : ReservedBits} {w : Word} {i : Instr} (h : decode policy w = .ok i) :
    ∃ r ∈ opcodeRows, r.accepts w = true ∧ i = r.build w ∧ (policy = .refuse → w &&& r.reserved = 0#32) := by
  cases hf : opcodeRows.find? (fun r => r.accepts w) with
  | none => simp [decode, hf] at h
  | some r =>
    have hr : r.accepts w = true := by simpa using List.find?_some hf
    rw [decode_of_accepts policy (List.mem_of_find?_eq_some hf) hr] at h
    by_cases hc : policy = .refuse ∧ w &&& r.reserved ≠ 0#32
    · rw [if_pos hc] at h; cases h
    · rw [if_neg hc] at h
      injection h with h
      exact ⟨r, List.mem_of_find?_eq_some hf, hr, h.symm, fun hp => by simpa [hp] using hc⟩

end Sys2Proof
end

