-- ==== Sys2Proof/Laws/State.lean ====
section
/-! SUPPORT. One lemma for each field of State and each update of it, so that no later proof unfolds an update. -/

namespace Sys2Proof.Machine

/-! ### The general register write -/

section writeGpr

variable (s : State) (r : RegNum) (v : Word)

@[simp] theorem State.writeGpr_cfg : (s.writeGpr r v).cfg = s.cfg := rfl
@[simp] theorem State.writeGpr_gpr : (s.writeGpr r v).gpr = if s.hardwiredZero r then s.gpr else s.gpr.set r.toNat v r.isLt := rfl
@[simp] theorem State.writeGpr_pc : (s.writeGpr r v).pc = s.pc := rfl
@[simp] theorem State.writeGpr_ds : (s.writeGpr r v).ds = s.ds := rfl
@[simp] theorem State.writeGpr_sr : (s.writeGpr r v).sr = s.sr := rfl
@[simp] theorem State.writeGpr_machi : (s.writeGpr r v).machi = s.machi := rfl
@[simp] theorem State.writeGpr_maclo : (s.writeGpr r v).maclo = s.maclo := rfl
@[simp] theorem State.writeGpr_epcr0 : (s.writeGpr r v).epcr0 = s.epcr0 := rfl
@[simp] theorem State.writeGpr_eear0 : (s.writeGpr r v).eear0 = s.eear0 := rfl
@[simp] theorem State.writeGpr_esr0 : (s.writeGpr r v).esr0 = s.esr0 := rfl
@[simp] theorem State.writeGpr_fpcsr : (s.writeGpr r v).fpcsr = s.fpcsr := rfl
@[simp] theorem State.writeGpr_picmr : (s.writeGpr r v).picmr = s.picmr := rfl
@[simp] theorem State.writeGpr_picsr : (s.writeGpr r v).picsr = s.picsr := rfl
@[simp] theorem State.writeGpr_mem : (s.writeGpr r v).mem = s.mem := rfl
@[simp] theorem State.writeGpr_irqLines : (s.writeGpr r v).irqLines = s.irqLines := rfl
@[simp] theorem State.writeGpr_irqInput : (s.writeGpr r v).irqInput = s.irqInput := rfl
@[simp] theorem State.writeGpr_tick : (s.writeGpr r v).tick = s.tick := rfl
@[simp] theorem State.writeGpr_draws : (s.writeGpr r v).draws = s.draws := rfl
@[simp] theorem State.writeGpr_flag (f : SrField) : (s.writeGpr r v).flag f = s.flag f := rfl
@[simp] theorem State.writeGpr_hardwiredZero (q : RegNum) : (s.writeGpr r v).hardwiredZero q = s.hardwiredZero q := rfl

end writeGpr

/-! ### The flag write -/

section setCarryOverflow

variable (s : State) (cy ov : Bool)

@[simp] theorem State.setCarryOverflow_cfg : (s.setCarryOverflow cy ov).cfg = s.cfg := rfl
@[simp] theorem State.setCarryOverflow_gpr : (s.setCarryOverflow cy ov).gpr = s.gpr := rfl
@[simp] theorem State.setCarryOverflow_pc : (s.setCarryOverflow cy ov).pc = s.pc := rfl
@[simp] theorem State.setCarryOverflow_ds : (s.setCarryOverflow cy ov).ds = s.ds := rfl
@[simp] theorem State.setCarryOverflow_sr : (s.setCarryOverflow cy ov).sr = setSr (setSr s.sr .CY cy) .OV ov := rfl
@[simp] theorem State.setCarryOverflow_machi : (s.setCarryOverflow cy ov).machi = s.machi := rfl
@[simp] theorem State.setCarryOverflow_maclo : (s.setCarryOverflow cy ov).maclo = s.maclo := rfl
@[simp] theorem State.setCarryOverflow_epcr0 : (s.setCarryOverflow cy ov).epcr0 = s.epcr0 := rfl
@[simp] theorem State.setCarryOverflow_eear0 : (s.setCarryOverflow cy ov).eear0 = s.eear0 := rfl
@[simp] theorem State.setCarryOverflow_esr0 : (s.setCarryOverflow cy ov).esr0 = s.esr0 := rfl
@[simp] theorem State.setCarryOverflow_fpcsr : (s.setCarryOverflow cy ov).fpcsr = s.fpcsr := rfl
@[simp] theorem State.setCarryOverflow_picmr : (s.setCarryOverflow cy ov).picmr = s.picmr := rfl
@[simp] theorem State.setCarryOverflow_picsr : (s.setCarryOverflow cy ov).picsr = s.picsr := rfl
@[simp] theorem State.setCarryOverflow_mem : (s.setCarryOverflow cy ov).mem = s.mem := rfl
@[simp] theorem State.setCarryOverflow_irqLines : (s.setCarryOverflow cy ov).irqLines = s.irqLines := rfl
@[simp] theorem State.setCarryOverflow_irqInput : (s.setCarryOverflow cy ov).irqInput = s.irqInput := rfl
@[simp] theorem State.setCarryOverflow_tick : (s.setCarryOverflow cy ov).tick = s.tick := rfl
@[simp] theorem State.setCarryOverflow_draws : (s.setCarryOverflow cy ov).draws = s.draws := rfl
@[simp] theorem State.setCarryOverflow_readGpr (q : RegNum) : (s.setCarryOverflow cy ov).readGpr q = s.readGpr q := rfl
@[simp] theorem State.setCarryOverflow_hardwiredZero (q : RegNum) : (s.setCarryOverflow cy ov).hardwiredZero q = s.hardwiredZero q := rfl

end setCarryOverflow

/-! ### The drawing of a free value -/

section afterDraw

variable (s : State)

@[simp] theorem State.afterDraw_cfg : (s.afterDraw).cfg = s.cfg := rfl
@[simp] theorem State.afterDraw_gpr : (s.afterDraw).gpr = s.gpr := rfl
@[simp] theorem State.afterDraw_pc : (s.afterDraw).pc = s.pc := rfl
@[simp] theorem State.afterDraw_ds : (s.afterDraw).ds = s.ds := rfl
@[simp] theorem State.afterDraw_sr : (s.afterDraw).sr = s.sr := rfl
@[simp] theorem State.afterDraw_machi : (s.afterDraw).machi = s.machi := rfl
@[simp] theorem State.afterDraw_maclo : (s.afterDraw).maclo = s.maclo := rfl
@[simp] theorem State.afterDraw_epcr0 : (s.afterDraw).epcr0 = s.epcr0 := rfl
@[simp] theorem State.afterDraw_eear0 : (s.afterDraw).eear0 = s.eear0 := rfl
@[simp] theorem State.afterDraw_esr0 : (s.afterDraw).esr0 = s.esr0 := rfl
@[simp] theorem State.afterDraw_fpcsr : (s.afterDraw).fpcsr = s.fpcsr := rfl
@[simp] theorem State.afterDraw_picmr : (s.afterDraw).picmr = s.picmr := rfl
@[simp] theorem State.afterDraw_picsr : (s.afterDraw).picsr = s.picsr := rfl
@[simp] theorem State.afterDraw_mem : (s.afterDraw).mem = s.mem := rfl
@[simp] theorem State.afterDraw_irqLines : (s.afterDraw).irqLines = s.irqLines := rfl
@[simp] theorem State.afterDraw_irqInput : (s.afterDraw).irqInput = s.irqInput := rfl
@[simp] theorem State.afterDraw_tick : (s.afterDraw).tick = s.tick := rfl
@[simp] theorem State.afterDraw_draws : (s.afterDraw).draws = s.draws + 1 := rfl
@[simp] theorem State.afterDraw_flag (f : SrField) : (s.afterDraw).flag f = s.flag f := rfl
@[simp] theorem State.afterDraw_readGpr (q : RegNum) : (s.afterDraw).readGpr q = s.readGpr q := rfl
@[simp] theorem State.afterDraw_hardwiredZero (q : RegNum) : (s.afterDraw).hardwiredZero q = s.hardwiredZero q := rfl

end afterDraw

/-! ### The accumulator write -/

section setAccumulator

variable (s : State) (acc : BitVec 64)

@[simp] theorem State.setAccumulator_cfg : (s.setAccumulator acc).cfg = s.cfg := rfl
@[simp] theorem State.setAccumulator_gpr : (s.setAccumulator acc).gpr = s.gpr := rfl
@[simp] theorem State.setAccumulator_pc : (s.setAccumulator acc).pc = s.pc := rfl
@[simp] theorem State.setAccumulator_ds : (s.setAccumulator acc).ds = s.ds := rfl
@[simp] theorem State.setAccumulator_sr : (s.setAccumulator acc).sr = s.sr := rfl
@[simp] theorem State.setAccumulator_machi : (s.setAccumulator acc).machi = acc.extractLsb' 32 32 := rfl
@[simp] theorem State.setAccumulator_maclo : (s.setAccumulator acc).maclo = acc.extractLsb' 0 32 := rfl
@[simp] theorem State.setAccumulator_epcr0 : (s.setAccumulator acc).epcr0 = s.epcr0 := rfl
@[simp] theorem State.setAccumulator_eear0 : (s.setAccumulator acc).eear0 = s.eear0 := rfl
@[simp] theorem State.setAccumulator_esr0 : (s.setAccumulator acc).esr0 = s.esr0 := rfl
@[simp] theorem State.setAccumulator_fpcsr : (s.setAccumulator acc).fpcsr = s.fpcsr := rfl
@[simp] theorem State.setAccumulator_picmr : (s.setAccumulator acc).picmr = s.picmr := rfl
@[simp] theorem State.setAccumulator_picsr : (s.setAccumulator acc).picsr = s.picsr := rfl
@[simp] theorem State.setAccumulator_mem : (s.setAccumulator acc).mem = s.mem := rfl
@[simp] theorem State.setAccumulator_irqLines : (s.setAccumulator acc).irqLines = s.irqLines := rfl
@[simp] theorem State.setAccumulator_irqInput : (s.setAccumulator acc).irqInput = s.irqInput := rfl
@[simp] theorem State.setAccumulator_tick : (s.setAccumulator acc).tick = s.tick := rfl
@[simp] theorem State.setAccumulator_draws : (s.setAccumulator acc).draws = s.draws := rfl
@[simp] theorem State.setAccumulator_flag (f : SrField) : (s.setAccumulator acc).flag f = s.flag f := rfl
@[simp] theorem State.setAccumulator_readGpr (q : RegNum) : (s.setAccumulator acc).readGpr q = s.readGpr q := rfl
@[simp] theorem State.setAccumulator_hardwiredZero (q : RegNum) : (s.setAccumulator acc).hardwiredZero q = s.hardwiredZero q := rfl

end setAccumulator

/-! ### The taking of an exception -/

section takeException

variable (s : State) (e : Exception) (ea : Option Word)

@[simp] theorem State.takeException_cfg : (s.takeException e ea).cfg = s.cfg := rfl
@[simp] theorem State.takeException_gpr : (s.takeException e ea).gpr = s.gpr := rfl
@[simp] theorem State.takeException_pc : (s.takeException e ea).pc = vectorAddress s.cfg s.sr e := rfl
@[simp] theorem State.takeException_ds : (s.takeException e ea).ds = none := rfl
@[simp] theorem State.takeException_sr : (s.takeException e ea).sr = srAtEntry s.cfg s.inDelaySlot s.sr := rfl
@[simp] theorem State.takeException_machi : (s.takeException e ea).machi = s.machi := rfl
@[simp] theorem State.takeException_maclo : (s.takeException e ea).maclo = s.maclo := rfl
@[simp] theorem State.takeException_epcr0 : (s.takeException e ea).epcr0 = s.exceptionPc e := rfl
@[simp] theorem State.takeException_eear0 : (s.takeException e ea).eear0 = ea.getD s.eear0 := rfl
@[simp] theorem State.takeException_esr0 : (s.takeException e ea).esr0 = s.sr := rfl
@[simp] theorem State.takeException_fpcsr : (s.takeException e ea).fpcsr = s.fpcsr := rfl
@[simp] theorem State.takeException_picmr : (s.takeException e ea).picmr = s.picmr := rfl
@[simp] theorem State.takeException_picsr : (s.takeException e ea).picsr = s.picsr := rfl
@[simp] theorem State.takeException_mem : (s.takeException e ea).mem = s.mem := rfl
@[simp] theorem State.takeException_irqLines : (s.takeException e ea).irqLines = s.irqLines := rfl
@[simp] theorem State.takeException_irqInput : (s.takeException e ea).irqInput = s.irqInput := rfl
@[simp] theorem State.takeException_tick : (s.takeException e ea).tick = s.tick := rfl
@[simp] theorem State.takeException_draws : (s.takeException e ea).draws = s.draws := rfl
@[simp] theorem State.takeException_readGpr (q : RegNum) : (s.takeException e ea).readGpr q = s.readGpr q := rfl
@[simp] theorem State.takeException_hardwiredZero (q : RegNum) : (s.takeException e ea).hardwiredZero q = s.hardwiredZero q := rfl

end takeException

/-! ### The sampling of the lines -/

section sample

variable (s : State)

@[simp] theorem State.sample_cfg : (s.sample).cfg = s.cfg := rfl
@[simp] theorem State.sample_gpr : (s.sample).gpr = s.gpr := rfl
@[simp] theorem State.sample_pc : (s.sample).pc = s.pc := rfl
@[simp] theorem State.sample_ds : (s.sample).ds = s.ds := rfl
@[simp] theorem State.sample_sr : (s.sample).sr = s.sr := rfl
@[simp] theorem State.sample_machi : (s.sample).machi = s.machi := rfl
@[simp] theorem State.sample_maclo : (s.sample).maclo = s.maclo := rfl
@[simp] theorem State.sample_epcr0 : (s.sample).epcr0 = s.epcr0 := rfl
@[simp] theorem State.sample_eear0 : (s.sample).eear0 = s.eear0 := rfl
@[simp] theorem State.sample_esr0 : (s.sample).esr0 = s.esr0 := rfl
@[simp] theorem State.sample_fpcsr : (s.sample).fpcsr = s.fpcsr := rfl
@[simp] theorem State.sample_picmr : (s.sample).picmr = s.picmr := rfl
@[simp] theorem State.sample_picsr : (s.sample).picsr = if s.cfg.picPresent then s.picsr ||| s.latchOf s.nextLines else s.picsr := rfl
@[simp] theorem State.sample_mem : (s.sample).mem = s.mem := rfl
@[simp] theorem State.sample_irqLines : (s.sample).irqLines = s.nextLines := rfl
@[simp] theorem State.sample_irqInput : (s.sample).irqInput = s.irqInput.tail := rfl
@[simp] theorem State.sample_tick : (s.sample).tick = s.tick + 1 := rfl
@[simp] theorem State.sample_draws : (s.sample).draws = s.draws := rfl
@[simp] theorem State.sample_flag (f : SrField) : (s.sample).flag f = s.flag f := rfl
@[simp] theorem State.sample_readGpr (q : RegNum) : (s.sample).readGpr q = s.readGpr q := rfl
@[simp] theorem State.sample_hardwiredZero (q : RegNum) : (s.sample).hardwiredZero q = s.hardwiredZero q := rfl

end sample

/-! ### The write of a special-purpose register: what it leaves alone -/

section setSpr

variable (s : State) (r : Spr) (v : Word)

@[simp] theorem State.setSpr_cfg : (s.setSpr r v).cfg = s.cfg := by cases r <;> rfl
@[simp] theorem State.setSpr_gpr : (s.setSpr r v).gpr = s.gpr := by cases r <;> rfl
@[simp] theorem State.setSpr_pc : (s.setSpr r v).pc = s.pc := by cases r <;> rfl
@[simp] theorem State.setSpr_ds : (s.setSpr r v).ds = s.ds := by cases r <;> rfl
@[simp] theorem State.setSpr_mem : (s.setSpr r v).mem = s.mem := by cases r <;> rfl
@[simp] theorem State.setSpr_irqLines : (s.setSpr r v).irqLines = s.irqLines := by cases r <;> rfl
@[simp] theorem State.setSpr_irqInput : (s.setSpr r v).irqInput = s.irqInput := by cases r <;> rfl
@[simp] theorem State.setSpr_tick : (s.setSpr r v).tick = s.tick := by cases r <;> rfl
@[simp] theorem State.setSpr_draws : (s.setSpr r v).draws = s.draws := by cases r <;> rfl
@[simp] theorem State.setSpr_readGpr (q : RegNum) : (s.setSpr r v).readGpr q = s.readGpr q := by cases r <;> rfl
@[simp] theorem State.setSpr_hardwiredZero (q : RegNum) : (s.setSpr r v).hardwiredZero q = s.hardwiredZero q := by
  cases r <;> rfl

end setSpr

/-! ### The placing of a word -/

section placeWord

variable (s : State) (w : Nat)

@[simp] theorem State.placeWord_cfg : (s.placeWord w).cfg = s.cfg := rfl
@[simp] theorem State.placeWord_gpr : (s.placeWord w).gpr = s.gpr := rfl
@[simp] theorem State.placeWord_pc : (s.placeWord w).pc = s.pc := rfl
@[simp] theorem State.placeWord_ds : (s.placeWord w).ds = s.ds := rfl
@[simp] theorem State.placeWord_sr : (s.placeWord w).sr = s.sr := rfl
@[simp] theorem State.placeWord_machi : (s.placeWord w).machi = s.machi := rfl
@[simp] theorem State.placeWord_maclo : (s.placeWord w).maclo = s.maclo := rfl
@[simp] theorem State.placeWord_epcr0 : (s.placeWord w).epcr0 = s.epcr0 := rfl
@[simp] theorem State.placeWord_eear0 : (s.placeWord w).eear0 = s.eear0 := rfl
@[simp] theorem State.placeWord_esr0 : (s.placeWord w).esr0 = s.esr0 := rfl
@[simp] theorem State.placeWord_fpcsr : (s.placeWord w).fpcsr = s.fpcsr := rfl
@[simp] theorem State.placeWord_picmr : (s.placeWord w).picmr = s.picmr := rfl
@[simp] theorem State.placeWord_picsr : (s.placeWord w).picsr = s.picsr := rfl
@[simp] theorem State.placeWord_mem : (s.placeWord w).mem = s.mem.writeBytes s.pc.toNat (splitBytes s.cfg.bigEndian 4 w) := rfl
@[simp] theorem State.placeWord_irqLines : (s.placeWord w).irqLines = s.irqLines := rfl
@[simp] theorem State.placeWord_irqInput : (s.placeWord w).irqInput = s.irqInput := rfl
@[simp] theorem State.placeWord_tick : (s.placeWord w).tick = s.tick := rfl
@[simp] theorem State.placeWord_draws : (s.placeWord w).draws = s.draws := rfl
@[simp] theorem State.placeWord_flag (f : SrField) : (s.placeWord w).flag f = s.flag f := rfl
@[simp] theorem State.placeWord_readGpr (q : RegNum) : (s.placeWord w).readGpr q = s.readGpr q := rfl
@[simp] theorem State.placeWord_hardwiredZero (q : RegNum) : (s.placeWord w).hardwiredZero q = s.hardwiredZero q := rfl

end placeWord

/-! ### The memory write -/

section memWrite

variable (s : State) (addr : Word) (n : Nat) (v : BitVec (8 * n))

@[simp] theorem State.memWrite_cfg : (s.memWrite addr n v).cfg = s.cfg := rfl
@[simp] theorem State.memWrite_gpr : (s.memWrite addr n v).gpr = s.gpr := rfl
@[simp] theorem State.memWrite_pc : (s.memWrite addr n v).pc = s.pc := rfl
@[simp] theorem State.memWrite_ds : (s.memWrite addr n v).ds = s.ds := rfl
@[simp] theorem State.memWrite_sr : (s.memWrite addr n v).sr = s.sr := rfl
@[simp] theorem State.memWrite_machi : (s.memWrite addr n v).machi = s.machi := rfl
@[simp] theorem State.memWrite_maclo : (s.memWrite addr n v).maclo = s.maclo := rfl
@[simp] theorem State.memWrite_epcr0 : (s.memWrite addr n v).epcr0 = s.epcr0 := rfl
@[simp] theorem State.memWrite_eear0 : (s.memWrite addr n v).eear0 = s.eear0 := rfl
@[simp] theorem State.memWrite_esr0 : (s.memWrite addr n v).esr0 = s.esr0 := rfl
@[simp] theorem State.memWrite_fpcsr : (s.memWrite addr n v).fpcsr = s.fpcsr := rfl
@[simp] theorem State.memWrite_picmr : (s.memWrite addr n v).picmr = s.picmr := rfl
@[simp] theorem State.memWrite_picsr : (s.memWrite addr n v).picsr = s.picsr := rfl
@[simp] theorem State.memWrite_mem : (s.memWrite addr n v).mem = if accessAllowed addr n then s.mem.writeBytes addr.toNat (splitBytes s.cfg.bigEndian n v.toNat) else s.mem := rfl
@[simp] theorem State.memWrite_irqLines : (s.memWrite addr n v).irqLines = s.irqLines := rfl
@[simp] theorem State.memWrite_irqInput : (s.memWrite addr n v).irqInput = s.irqInput := rfl
@[simp] theorem State.memWrite_tick : (s.memWrite addr n v).tick = s.tick := rfl
@[simp] theorem State.memWrite_draws : (s.memWrite addr n v).draws = s.draws := rfl
@[simp] theorem State.memWrite_flag (f : SrField) : (s.memWrite addr n v).flag f = s.flag f := rfl
@[simp] theorem State.memWrite_readGpr (q : RegNum) : (s.memWrite addr n v).readGpr q = s.readGpr q := rfl
@[simp] theorem State.memWrite_hardwiredZero (q : RegNum) : (s.memWrite addr n v).hardwiredZero q = s.hardwiredZero q := rfl

end memWrite

end Sys2Proof.Machine
end

