-- ==== Sys2Proof/Laws/Registers.lean ====
section
/-! SUPPORT. Reading what was written: fields of SR and general registers. -/

namespace Sys2Proof.Machine

theorem SrField.pos_lt (f : SrField) : f.pos < 32 := by cases f <;> decide

theorem SrField.pos_inj {f g : SrField} (h : f.pos = g.pos) : f = g := by
  cases f <;> cases g <;> first | rfl | (exact absurd h (by decide))

/-- One bit of a value of SR after one field is replaced. -/
theorem getLsbD_setSr (sr : Word) (f : SrField) (v : Bool) (n : Nat) :
    (setSr sr f v).getLsbD n = if n = f.pos then v else sr.getLsbD n := by
  have hf := f.pos_lt
  by_cases hn : n < 32
  · cases v <;> by_cases h : n = f.pos <;> simp [setSr, h, hf, hn, Ne.symm]
  · have h : ¬n = f.pos := by omega
    rw [if_neg h, BitVec.getLsbD_of_ge _ _ (by omega), BitVec.getLsbD_of_ge _ _ (by omega)]

@[simp] theorem getSr_setSr_self (sr : Word) (f : SrField) (v : Bool) : getSr (setSr sr f v) f = v := by
  simp [getSr, getLsbD_setSr]

theorem getSr_setSr_ne (sr : Word) {f g : SrField} (v : Bool) (h : g ≠ f) :
    getSr (setSr sr f v) g = getSr sr g := by
  simp only [getSr, getLsbD_setSr]
  exact if_neg (fun e => h (SrField.pos_inj e))

/-- One bit of SR after CY and OV are written. -/
theorem getLsbD_setCarryOverflow (s : State) (cy ov : Bool) (n : Nat) :
    (s.setCarryOverflow cy ov).sr.getLsbD n = if n = 11 then ov else if n = 10 then cy else s.sr.getLsbD n := by
  rw [State.setCarryOverflow_sr, getLsbD_setSr, getLsbD_setSr]
  rfl

/-- One bit of SR after trap entry (60 R224). -/
theorem getLsbD_srAtEntry (cfg : Config) (slot : Bool) (sr : Word) (n : Nat) :
    (srAtEntry cfg slot sr).getLsbD n =
      if n = 13 then slot
      else if n = 12 then sr.getLsbD 12 && !cfg.trapClearsOve
      else if n = 6 ∨ n = 5 ∨ n = 1 ∨ n = 2 then false
      else if n = 0 then true
      else sr.getLsbD n := by
  cases h : cfg.trapClearsOve <;>
    simp only [srAtEntry, h, if_true, if_false, Bool.false_eq_true, getLsbD_setSr, SrField.pos] <;>
    split_ifs <;> first | rfl | simp_all

/-- The register read after a register write (10 R20, R22). -/
theorem readGpr_writeGpr (s : State) (d r : RegNum) (v : Word) :
    (s.writeGpr d v).readGpr r = if s.hardwiredZero r then 0#32 else if r = d then v else s.readGpr r := by
  have hne (h : ¬r = d) : d.toNat ≠ r.toNat := fun e => h (BitVec.eq_of_toNat_eq e.symm)
  by_cases hr : s.hardwiredZero r = true
  · simp [State.readGpr, hr]
  · by_cases hd : s.hardwiredZero d = true
    · have hrd : ¬r = d := fun e => hr (e ▸ hd)
      simp [State.readGpr, hr, hd, hrd]
    · by_cases hrd : r = d
      · subst hrd; simp [State.readGpr, hr]
      · simp [State.readGpr, hr, hd, hrd, Vector.getElem_set_ne _ _ (hne hrd)]

@[simp] theorem readGpr_writeGpr_ne (s : State) {d r : RegNum} (v : Word) (h : r ≠ d) :
    (s.writeGpr d v).readGpr r = s.readGpr r := by
  rw [readGpr_writeGpr, if_neg h]
  by_cases hr : s.hardwiredZero r = true <;> simp [State.readGpr, hr]

/-- A register that is not hardwired reads what was written (10 R20). -/
theorem readGpr_writeGpr_self (s : State) (d : RegNum) (v : Word) :
    (s.writeGpr d v).readGpr d = if s.cfg.r0Hardwired = true ∧ d = 0#5 then 0#32 else v := by
  rw [readGpr_writeGpr]
  simp [State.hardwiredZero]

end Sys2Proof.Machine
end

