-- ==== Sys2Proof/Laws/Ops.lean ====
section
/-! SUPPORT. What each shared operation can answer, said once: if it answers a next state, then which one and under what
conditions. -/

namespace Sys2Proof.Machine

open Sys2Proof.Safety

theorem canGoOn_iff (s : State) : CanGoOn s ↔ s.ds = none → s.nextPcWraps = false := by
  cases h : s.ds <;> simp [CanGoOn, State.nextPcWraps, h]
  omega

/-- Going on answers a next state exactly where the machine can go on, and moves only `pc` and `ds`. -/
theorem advance_next_iff (s t : State) :
    s.advance = .next t ↔ CanGoOn s ∧ t = { s with pc := s.ds.getD (s.pc + 4), ds := none } := by
  rw [canGoOn_iff]
  cases h : s.ds with
  | some x => simp [State.advance, h, eq_comm (a := t)]
  | none =>
    cases hw : s.nextPcWraps <;> simp [State.advance, h, hw, eq_comm (a := t)]

theorem advance_of_canGoOn {s : State} (h : CanGoOn s) :
    s.advance = .next { s with pc := s.ds.getD (s.pc + 4), ds := none } :=
  (advance_next_iff s _).mpr ⟨h, rfl⟩

/-- Going on either answers that next state or is refused for the wrap of `pc` (10 R24). -/
theorem advance_cases (s : State) :
    (CanGoOn s ∧ s.advance = .next { s with pc := s.ds.getD (s.pc + 4), ds := none }) ∨
    (¬CanGoOn s ∧ s.advance = .refused .pcWrap) := by
  by_cases h : CanGoOn s
  · exact .inl ⟨h, advance_of_canGoOn h⟩
  · refine .inr ⟨h, ?_⟩
    rw [canGoOn_iff] at h
    cases hd : s.ds with
    | some x => simp [hd] at h
    | none =>
      have hw : s.nextPcWraps = true := by simpa [hd] using h
      simp [State.advance, hd, hw]

/-- A jump answers a next state exactly where its delay slot has an address (42 R140). -/
theorem armDelaySlot_next_iff (s t : State) (target : Word) :
    s.armDelaySlot target = .next t ↔
      s.nextPcWraps = false ∧ t = { s with pc := s.pc + 4, ds := some target } := by
  cases h : s.nextPcWraps <;> simp [State.armDelaySlot, h, eq_comm (a := t)]

/-- The end of an arithmetic instruction: the Range exception, or the writes and going on (40 R105). -/
theorem finishArith_cases (s s' : State) (d : RegNum) (v : Word) (cy ov trap : Bool) :
    (trap = true ∧ s.flag .OVE = true ∧
      s.finishArith s' d v cy ov trap =
        .next ((if s.cfg.rangeCommits then (s'.writeGpr d v).setCarryOverflow cy ov else s).takeException .range none)) ∨
    (¬(trap = true ∧ s.flag .OVE = true) ∧
      s.finishArith s' d v cy ov trap = ((s'.writeGpr d v).setCarryOverflow cy ov).advance) := by
  cases trap <;> cases h : s.flag .OVE <;> simp [State.finishArith, h]

/-- The return from an exception answers a next state exactly where ESR0 and EPCR0 allow it (45 R205). -/
theorem returnFromException_next_iff (s t : State) :
    s.returnFromException = .next t ↔
      s.esr0 &&& srMustStayZero = 0#32 ∧ s.epcr0 &&& 3#32 = 0#32 ∧
      t = { s with sr := srWritten s.esr0, pc := s.epcr0, ds := none } := by
  by_cases h1 : s.esr0 &&& srMustStayZero = 0#32 <;> by_cases h2 : s.epcr0 &&& 3#32 = 0#32 <;>
    simp [State.returnFromException, h1, h2, eq_comm (a := t)]

theorem ifCompanion_next_iff (s t : State) (k : Result) :
    s.ifCompanion k = .next t ↔ s.cfg.companionSet = true ∧ k = .next t := by
  cases h : s.cfg.companionSet <;> simp [State.ifCompanion, h]

theorem ifSupervisor_next_iff (s t : State) (k : Result) :
    s.ifSupervisor k = .next t ↔ s.flag .SM = true ∧ k = .next t := by
  cases h : s.flag .SM <;> simp [State.ifSupervisor, h]

theorem outsideDelaySlot_next_iff (s t : State) (k : Result) :
    s.outsideDelaySlot k = .next t ↔ s.ds = none ∧ k = .next t := by
  cases h : s.ds <;> simp [State.outsideDelaySlot, State.inDelaySlot, h]

theorem orRefuse_next_iff {α : Type} (r : Except Refusal α) (k : α → Result) (t : State) :
    orRefuse r k = .next t ↔ ∃ a, r = .ok a ∧ k a = .next t := by
  cases r <;> simp [orRefuse]

/-- The register that a number addresses: a number of 16 bits, of a register the parameters say is held. -/
theorem sprAt_ok_iff (s : State) (n : Word) (r : Spr) :
    s.sprAt n = .ok r ↔ n.toNat < 0x10000 ∧ sprOfNumber n = some r ∧ sprPresent s.cfg r = true := by
  by_cases h : 0x10000 ≤ n.toNat
  · simp only [State.sprAt, h, if_true, reduceCtorEq, false_iff]
    exact fun hn => absurd hn.1 (by omega)
  · cases hr : sprOfNumber n with
    | none => simp [State.sprAt, h, hr]
    | some q =>
      cases hq : sprPresent s.cfg q
      · simp only [State.sprAt, h, hr, hq]
        constructor
        · simp
        · rintro ⟨-, he, hp⟩; cases he; rw [hq] at hp; cases hp
      · simp only [State.sprAt, h, hr, hq, if_true, if_false]
        constructor
        · intro he; cases he; exact ⟨by omega, rfl, hq⟩
        · rintro ⟨-, he, -⟩; cases he; rfl

/-- What a write of a special-purpose register can do: one register changes, to the value 45 R206 gives it. -/
theorem writeSpr_ok {s t : State} {r : Spr} {v : Word} (h : s.writeSpr r v = .ok t) :
    t = s.setSpr r (s.sprWritten r v) ∧ (r = .sr → v &&& srMustStayZero = 0#32) ∧
    (r = .picsr → s.cfg.picsrWriteOne = .refuse → v &&& ~~~s.picsr = 0#32) := by
  rw [State.writeSpr] at h
  split at h
  · cases h
  · rename_i hsr
    split at h
    · cases h
    · rename_i hpic
      injection h with h
      exact ⟨h.symm, fun hr => by simpa [hr] using hsr, fun hr hp => by simpa [hr, hp] using hpic⟩

/-- A faulting jump always takes the ALIGN exception (42 R143). -/
theorem raiseAlign_eq (s : State) (target : Word) :
    s.raiseAlign target = .next (s.takeException .align (some target)) ∨
    s.raiseAlign target = .next (s.afterDraw.takeException .align (some s.drawn)) := by
  cases h : s.cfg.alignEear <;> simp [State.raiseAlign, h]

/-- What a step that answers a next state has done: it took the Interrupt exception, or it executed the instruction it
fetched (10 R26). -/
theorem step_next {s t : State} (h : step s = .next t) :
    (s.sample.interruptTaken = true ∧ t = s.sample.takeException .interrupt none) ∨
    (s.sample.interruptTaken = false ∧ s.sample.atHalt = false ∧
      ∃ w i, s.sample.fetch = .ok w ∧ s.sample.decodeWord w = .ok i ∧ exec i s.sample = .next t) := by
  simp only [step] at h
  split at h
  · rename_i hi; injection h with h; exact .inl ⟨hi, h.symm⟩
  · rename_i hi
    split at h
    · cases h
    · rename_i hh
      split at h
      · cases h
      · rename_i w hw
        split at h
        · cases h
        · rename_i i hd
          exact .inr ⟨by simpa using hi, by simpa using hh, w, i, hw, hd, h⟩

/-- A step that takes no interrupt and is not at `halt_addr` executes the instruction at the program counter. -/
theorem step_of_decoded {s : State} {w : Word} {i : Instr} (hi : s.sample.interruptTaken = false)
    (hh : s.sample.atHalt = false) (hw : s.sample.fetch = .ok w) (hd : s.sample.decodeWord w = .ok i) :
    step s = exec i s.sample := by
  simp [step, hi, hh, hw, hd]

end Sys2Proof.Machine
end

