-- ==== Sys2Proof/Laws/Frames.lean ====
section
/-! SUPPORT. The common ends of the instructions, each with its result and its frame said once in the terms of
Safety.lean, and what no instruction does. -/

namespace Sys2Proof.Machine

open Sys2Proof.Safety

/-- Outside the general registers, SR, `pc`, `ds` and the count of free values nothing of the frame changes. -/
theorem keeps_of_core_writes (s : State) (gpr : Vector Word 32) (pc : Word) (ds : Option Word) (sr : Word) (draws : Nat) :
    let t := { s with gpr := gpr, pc := pc, ds := ds, sr := sr, draws := draws }
    KeepsSprs s t ∧ KeepsMemory s t ∧ KeepsInputs s t := by
  simp [KeepsSprs, KeepsMac, KeepsSaved, KeepsFpcsr, KeepsPic, KeepsMemory, KeepsInputs]

/-- An instruction that writes one register and goes on. -/
theorem writeGpr_advance {s : State} (d : RegNum) (v : Word) (h : CanGoOn s) :
    ∃ t, (s.writeGpr d v).advance = .next t ∧ WritesOnly s t d v := by
  obtain ⟨hsprs, hmem, hin⟩ := keeps_of_core_writes s (s.writeGpr d v).gpr (s.ds.getD (s.pc + 4)) none s.sr s.draws
  exact ⟨_, advance_of_canGoOn (s := s.writeGpr d v) h, readGpr_writeGpr_self s d v,
    fun r hr => readGpr_writeGpr_ne s v (by simpa using hr), rfl, hsprs, hmem, hin, rfl, rfl, rfl⟩

/-- An instruction that writes one register, CY and OV and goes on, `n` free values having been drawn. -/
theorem writeFlags_advance {s s' : State} (d : RegNum) (v : Word) (cy ov : Bool) (n : Nat) (h : CanGoOn s)
    (hs : s' = { s with draws := s.draws + n }) :
    ∃ t, ((s'.writeGpr d v).setCarryOverflow cy ov).advance = .next t ∧ WritesWithFlags s t d v cy ov n := by
  subst hs
  obtain ⟨hsprs, hmem, hin⟩ := keeps_of_core_writes s (s.writeGpr d v).gpr (s.ds.getD (s.pc + 4)) none
    (s.setCarryOverflow cy ov).sr (s.draws + n)
  refine ⟨_, advance_of_canGoOn h, readGpr_writeGpr_self { s with draws := s.draws + n } d v, ?_, ?_,
    fun r hr => readGpr_writeGpr_ne { s with draws := s.draws + n } v (by simpa using hr), fun m hm => ?_,
    hsprs, hmem, hin, rfl, rfl, rfl⟩
  · simp [State.flag, getSr_setSr_ne]
  · simp [State.flag]
  · have hm' : ¬m = 10 ∧ ¬m = 11 := by simpa [SrField.pos] using hm
    change (((State.writeGpr _ d v).setCarryOverflow cy ov).sr).getLsbD m = _
    rw [getLsbD_setCarryOverflow, if_neg hm'.2, if_neg hm'.1]
    rfl

/-- Trap entry as seen from outside (60 R224). -/
theorem entered_takeException (s : State) (e : Exception) (ea : Option Word) :
    Entered e s (s.takeException e ea) s.sr (ea.getD s.eear0) := by
  simp only [Entered, State.flag, getSr, State.takeException_sr, getLsbD_srAtEntry, SrField.pos]
  refine ⟨rfl, rfl, rfl, by simp, by simp, by simp, by simp, by simp, by simp, by simp [State.inDelaySlot], ?_, rfl, rfl⟩
  intro n hn
  have hn' : ¬n = 0 ∧ ¬n = 2 ∧ ¬n = 1 ∧ ¬n = 5 ∧ ¬n = 6 ∧ ¬n = 12 ∧ ¬n = 13 := by simpa [SrField.pos] using hn
  simp [hn']

theorem entryKeeps_takeException (s : State) (e : Exception) (ea : Option Word) :
    EntryKeeps s (s.takeException e ea) := by
  simp [EntryKeeps, KeepsGprBut, KeepsMac, KeepsFpcsr, KeepsPic, KeepsMemory, KeepsInputs]

/-- The Range exception of an arithmetic instruction (40 R105). -/
theorem finishArith_range {s s' : State} (d : RegNum) (v : Word) (cy ov : Bool) (n : Nat)
    (hs : s' = { s with draws := s.draws + n }) (hove : s.flag .OVE = true) :
    ∃ t, s.finishArith s' d v cy ov true = .next t ∧ RangeTaken s t d v cy ov n := by
  rcases finishArith_cases s s' d v cy ov true with ⟨-, -, h⟩ | ⟨h, -⟩
  · refine ⟨_, h, ?_⟩
    subst hs
    cases hc : s.cfg.rangeCommits with
    | false =>
      obtain ⟨hgpr, hmac, hfp, hpic, hmem, hin⟩ := entryKeeps_takeException s .range none
      exact ⟨hmac, hfp, hpic, hmem, hin, fun h => absurd (hc.symm.trans h) (by decide),
        fun _ => ⟨entered_takeException s .range none, hgpr, rfl⟩⟩
    | true =>
      obtain ⟨-, hmac, hfp, hpic, hmem, hin⟩ :=
        entryKeeps_takeException ((State.writeGpr { s with draws := s.draws + n } d v).setCarryOverflow cy ov) .range none
      exact ⟨hmac, hfp, hpic, hmem, hin,
        fun _ => ⟨entered_takeException ((State.writeGpr { s with draws := s.draws + n } d v).setCarryOverflow cy ov) .range
            none, readGpr_writeGpr_self { s with draws := s.draws + n } d v,
          fun r hr => readGpr_writeGpr_ne { s with draws := s.draws + n } v (by simpa using hr), rfl⟩,
        fun h => absurd (hc.symm.trans h) (by decide)⟩
  · exact absurd ⟨rfl, hove⟩ h

theorem addOverflow_eq (a b : Word) (c : Bool) :
    addOverflow a b c = decide ¬FitsSigned (a.toInt + b.toInt + carryIn c) := by
  rw [Bool.eq_iff_iff]
  simp only [addOverflow, outsideSigned, Bool.or_eq_true, decide_eq_true_eq]
  omega

theorem mulOverflow_eq (a b : Word) : mulOverflow a b = decide ¬FitsSigned (a.toInt * b.toInt) := by
  rw [Bool.eq_iff_iff]
  simp only [mulOverflow, outsideSigned, Bool.or_eq_true, decide_eq_true_eq]
  omega

/-- No instruction ends in a fault: the model's faults are the fetch's and the end of the run. -/
theorem exec_ne_fault (i : Instr) (s : State) (f : Fault) : exec i s ≠ .fault f := by
  have hadv : ∀ s : State, s.advance ≠ .fault f := fun s => by
    rcases advance_cases s with ⟨-, h⟩ | ⟨-, h⟩ <;> simp [h]
  have hfin : ∀ (s s' : State) d v cy ov tr, s.finishArith s' d v cy ov tr ≠ .fault f := fun s s' d v cy ov tr => by
    rcases finishArith_cases s s' d v cy ov tr with ⟨-, -, h⟩ | ⟨-, h⟩ <;> simp [h, hadv]
  have harm : ∀ (s : State) x, s.armDelaySlot x ≠ .fault f := fun s x => by
    simp only [State.armDelaySlot]; split <;> simp
  have hal : ∀ (s : State) x, s.raiseAlign x ≠ .fault f := fun s x => by
    rcases raiseAlign_eq s x with h | h <;> simp [h]
  cases i <;> simp only [exec, execJr, execJalr, execMaci, execAddi, execAddic, execXori, execMuli, execLfMaddS,
    execLfMaddD, execAdd, execAddc, execMul, execDiv, execDivu, execMulu, execFf1, execFl1, execRfe, execAndi, execOri,
    execMfspr, execMtspr, State.addInto, State.mulInto, State.divInto, State.ifCompanion, State.ifSupervisor,
    State.outsideDelaySlot, State.returnFromException, orRefuse] <;>
    (repeat' split) <;> simp [hadv, hfin, harm, hal]

end Sys2Proof.Machine
end

