-- ==== Sys2Proof/Laws/Exec.lean ====
section
/-! SUPPORT. What executing an instruction can answer, said once for all of them: five shapes of a next state. -/

namespace Sys2Proof.Machine

open Sys2Proof.Safety

/-- What an instruction may write before control moves, `l.mtspr` and `l.rfe` apart: general registers, CY, OV, the
accumulator, the flags of FPCSR, and the count of free values drawn. -/
def PlainWrites (s u : State) : Prop :=
  u = { s with gpr := u.gpr, sr := u.sr, machi := u.machi, maclo := u.maclo, fpcsr := u.fpcsr, draws := u.draws } ∧
  (∀ n, n ≠ 10 → n ≠ 11 → u.sr.getLsbD n = s.sr.getLsbD n) ∧
  ∃ flags, u.fpcsr = fpcsrWithFlags s.fpcsr flags

theorem fpcsrWithFlags_zero (w : Word) : fpcsrWithFlags w 0#9 = w := by simp [fpcsrWithFlags]

theorem PlainWrites.refl (s : State) : PlainWrites s s :=
  ⟨rfl, fun _ _ _ => rfl, 0#9, (fpcsrWithFlags_zero _).symm⟩

theorem PlainWrites.writeGpr {s u : State} (h : PlainWrites s u) (d : RegNum) (v : Word) :
    PlainWrites s (u.writeGpr d v) := by
  obtain ⟨he, hs, hf⟩ := h
  exact ⟨by rw [he]; rfl, hs, hf⟩

theorem PlainWrites.setCarryOverflow {s u : State} (h : PlainWrites s u) (cy ov : Bool) :
    PlainWrites s (u.setCarryOverflow cy ov) := by
  obtain ⟨he, hs, hf⟩ := h
  refine ⟨by rw [he]; rfl, fun n h10 h11 => ?_, hf⟩
  rw [getLsbD_setCarryOverflow, if_neg h11, if_neg h10, hs n h10 h11]

theorem PlainWrites.afterDraw {s u : State} (h : PlainWrites s u) : PlainWrites s u.afterDraw := by
  obtain ⟨he, hs, hf⟩ := h
  exact ⟨by rw [he]; rfl, hs, hf⟩

theorem PlainWrites.setAccumulator {s u : State} (h : PlainWrites s u) (acc : BitVec 64) :
    PlainWrites s (u.setAccumulator acc) := by
  obtain ⟨he, hs, hf⟩ := h
  exact ⟨by rw [he]; rfl, hs, hf⟩

/-- An exception entered after plain writes is entered from the state before them (60 R224). -/
theorem PlainWrites.entered {s u : State} (hu : PlainWrites s u) (e : Exception) (ea : Option Word) :
    Entered e s (u.takeException e ea) u.sr (ea.getD s.eear0) := by
  have hds : u.ds = s.ds := by rw [hu.1]
  have hpc : u.exceptionPc e = s.exceptionPc e := by rw [hu.1]; rfl
  have hcf : u.cfg = s.cfg := by rw [hu.1]
  have hea : u.eear0 = s.eear0 := by rw [hu.1]
  have h := entered_takeException u e ea
  simp only [Entered, hpc, hds, hcf, hea] at h
  exact h

/-- The five shapes of a next state: control went on after plain writes; a jump armed its delay slot; an exception was
entered after plain writes; `l.rfe` returned; `l.mtspr` wrote a special-purpose register and went on. -/
def ExecShape (i : Instr) (s t : State) : Prop :=
  (∃ u, PlainWrites s u ∧ CanGoOn s ∧ t = { u with pc := s.ds.getD (s.pc + 4), ds := none }) ∨
  (∃ u target, PlainWrites s u ∧ s.ds = none ∧ s.nextPcWraps = false ∧ wordAligned target = true ∧
    t = { u with pc := s.pc + 4, ds := some target }) ∨
  (∃ u e ea, PlainWrites s u ∧ t = u.takeException e ea) ∨
  (i = .rfe ∧ s.flag .SM = true ∧ s.ds = none ∧ s.esr0 &&& srMustStayZero = 0#32 ∧ s.epcr0 &&& 3#32 = 0#32 ∧
    t = { s with sr := srWritten s.esr0, pc := s.epcr0, ds := none }) ∨
  (∃ a b imm r u, i = .mtspr a b imm ∧ s.flag .SM = true ∧ s.sprAt (s.sprNumber a imm) = .ok r ∧
    s.writeSpr r (s.readGpr b) = .ok u ∧ CanGoOn s ∧ t = { u with pc := s.ds.getD (s.pc + 4), ds := none })

theorem PlainWrites.advance {i : Instr} {s u t : State} (hu : PlainWrites s u) (h : u.advance = .next t) :
    ExecShape i s t := by
  obtain ⟨hg, ht⟩ := (advance_next_iff _ _).mp h
  have hd : u.ds = s.ds := by rw [hu.1]
  have hp : u.pc = s.pc := by rw [hu.1]
  refine .inl ⟨u, hu, by simpa [CanGoOn, hd, hp] using hg, by rw [ht, hd, hp]⟩

theorem PlainWrites.finishArith {i : Instr} {s s' t : State} {d : RegNum} {v : Word} {cy ov tr : Bool}
    (hu : PlainWrites s s') (h : s.finishArith s' d v cy ov tr = .next t) : ExecShape i s t := by
  rcases finishArith_cases s s' d v cy ov tr with ⟨-, -, he⟩ | ⟨-, he⟩ <;> rw [he] at h
  · injection h with h
    refine .inr <| .inr <| .inl ⟨_, .range, none, ?_, h.symm⟩
    split
    · exact (hu.writeGpr d v).setCarryOverflow cy ov
    · exact .refl s
  · exact ((hu.writeGpr d v).setCarryOverflow cy ov).advance h

theorem raiseAlign_shape {i : Instr} {s t : State} {x : Word} (h : s.raiseAlign x = .next t) : ExecShape i s t := by
  rcases raiseAlign_eq s x with he | he <;> rw [he] at h <;> injection h with h
  · exact .inr <| .inr <| .inl ⟨_, .align, _, .refl s, h.symm⟩
  · exact .inr <| .inr <| .inl ⟨_, .align, _, (PlainWrites.refl s).afterDraw, h.symm⟩

theorem PlainWrites.armDelaySlot {i : Instr} {s u t : State} {x : Word} (hu : PlainWrites s u) (hd : s.ds = none)
    (hx : wordAligned x = true) (h : u.armDelaySlot x = .next t) : ExecShape i s t := by
  obtain ⟨hw, ht⟩ := (armDelaySlot_next_iff _ _ _).mp h
  have hp : u.pc = s.pc := by rw [hu.1]
  exact .inr <| .inl ⟨u, x, hu, hd, by rw [State.nextPcWraps, ← hp]; exact hw, hx, by rw [ht, hp]⟩

/-- What `exec` can answer as a next state. -/
theorem exec_next {i : Instr} {s t : State} (h : exec i s = .next t) : ExecShape i s t := by
  have hr := PlainWrites.refl s
  cases i with
  | add | addc | addi | addic => exact hr.finishArith h
  | mulu d a b =>
    simp only [exec, execMulu] at h
    exact hr.finishArith h
  | mul d a b =>
    change s.mulInto _ _ _ = _ at h
    simp only [State.mulInto] at h
    split at h
    exacts [hr.finishArith h, PlainWrites.finishArith hr.afterDraw h]
  | muli d a imm =>
    change s.mulInto _ _ _ = _ at h
    simp only [State.mulInto] at h
    split at h
    exacts [hr.finishArith h, PlainWrites.finishArith hr.afterDraw h]
  | div d a b =>
    change s.divInto _ _ _ _ = _ at h
    simp only [State.divInto] at h
    split at h
    exacts [PlainWrites.finishArith hr.afterDraw h, hr.finishArith h]
  | divu d a b =>
    change s.divInto _ _ _ _ = _ at h
    simp only [State.divInto] at h
    split at h
    exacts [PlainWrites.finishArith hr.afterDraw h, hr.finishArith h]
  | ff1 | fl1 | xori => exact (hr.writeGpr _ _).advance h
  | andi | ori => exact (hr.writeGpr _ _).advance ((ifCompanion_next_iff _ _ _).mp h).2
  | maci a imm =>
    simp only [exec, execMaci] at h
    split at h
    · exact (hr.setAccumulator _).advance h
    · cases h
  | lfMaddD => cases h
  | lfMaddS d a b =>
    simp only [exec, execLfMaddS] at h
    split at h
    · have hw : ∀ v flags, PlainWrites s { s.writeGpr d v with fpcsr := fpcsrWithFlags s.fpcsr flags } :=
        fun v flags => ⟨rfl, fun _ _ _ => rfl, flags, rfl⟩
      split at h
      · injection h with h
        exact .inr <| .inr <| .inl ⟨_, _, _, hw _ _, h.symm⟩
      · exact (hw _ _).advance h
    · cases h
  | jr b =>
    obtain ⟨hd, h⟩ := (outsideDelaySlot_next_iff _ _ _).mp h
    split at h
    · rename_i ha; exact hr.armDelaySlot hd ha h
    · exact raiseAlign_shape h
  | jalr b =>
    obtain ⟨hd, h⟩ := (outsideDelaySlot_next_iff _ _ _).mp h
    split at h
    · injection h with h
      exact .inr <| .inr <| .inl ⟨_, _, _, hr, h.symm⟩
    · split at h
      · rename_i ha; exact PlainWrites.armDelaySlot (hr.writeGpr _ _) hd ha h
      · exact raiseAlign_shape h
  | rfe =>
    obtain ⟨-, h⟩ := (ifCompanion_next_iff _ _ _).mp h
    obtain ⟨hsm, h⟩ := (ifSupervisor_next_iff _ _ _).mp h
    obtain ⟨hd, h⟩ := (outsideDelaySlot_next_iff _ _ _).mp h
    obtain ⟨he, hp, ht⟩ := (returnFromException_next_iff _ _).mp h
    exact .inr <| .inr <| .inr <| .inl ⟨rfl, hsm, hd, he, hp, ht⟩
  | mfspr d a imm =>
    obtain ⟨-, h⟩ := (ifCompanion_next_iff _ _ _).mp h
    obtain ⟨-, h⟩ := (ifSupervisor_next_iff _ _ _).mp h
    obtain ⟨r, -, h⟩ := (orRefuse_next_iff _ _ _).mp h
    exact (hr.writeGpr _ _).advance h
  | mtspr a b imm =>
    obtain ⟨-, h⟩ := (ifCompanion_next_iff _ _ _).mp h
    obtain ⟨hsm, h⟩ := (ifSupervisor_next_iff _ _ _).mp h
    obtain ⟨r, hn, h⟩ := (orRefuse_next_iff _ _ _).mp h
    obtain ⟨u, hu, h⟩ := (orRefuse_next_iff _ _ _).mp h
    obtain ⟨hg, ht⟩ := (advance_next_iff _ _).mp h
    have hk : u.ds = s.ds ∧ u.pc = s.pc := by simp [(writeSpr_ok hu).1]
    refine .inr <| .inr <| .inr <| .inr ⟨a, b, imm, r, u, rfl, hsm, hn, hu, ?_, by rw [ht, hk.1, hk.2]⟩
    simpa [CanGoOn, hk.1, hk.2] using hg

end Sys2Proof.Machine
end

