-- ==== Sys2Proof/Laws/Memory.lean ====
section
/-! SUPPORT. Memory: a read after a write, and the canonical form that every operation keeps. -/

namespace Sys2Proof.Machine

/-- The byte read after a byte write: the byte written there, and every other byte as before. -/
theorem Memory.readByte_writeByte (m : Memory) (a b : Nat) (v : Byte) :
    (m.writeByte a v).readByte b = if b = a then some v else m.readByte b := by
  induction m with
  | nil =>
    by_cases h : b = a
    · simp [Memory.writeByte, Memory.readByte, h]
    · simp [Memory.writeByte, Memory.readByte, h, Ne.symm h]
  | cons c m ih =>
    obtain ⟨k, w⟩ := c
    by_cases h1 : a < k
    · by_cases h : b = a
      · simp [Memory.writeByte, Memory.readByte, h1, h]
      · simp [Memory.writeByte, Memory.readByte, h1, h, Ne.symm h]
    · by_cases h2 : a = k
      · by_cases h : b = a
        · simp [Memory.writeByte, Memory.readByte, h2, h]
        · have hk : ¬k = b := fun e => h (by omega)
          simp [Memory.writeByte, Memory.readByte, h2, hk, Ne.symm hk]
      · by_cases h : k = b
        · subst h
          simp [Memory.writeByte, Memory.readByte, h1, h2, Ne.symm h2]
        · simp [Memory.writeByte, Memory.readByte, h1, h2, h, ih]

theorem Memory.all_gt_writeByte {m : Memory} {k a : Nat} {v : Byte} (hm : m.all (fun c => decide (k < c.1)) = true)
    (ha : k < a) : (m.writeByte a v).all (fun c => decide (k < c.1)) = true := by
  induction m with
  | nil => simpa [Memory.writeByte] using ha
  | cons c m ih =>
    obtain ⟨j, w⟩ := c
    simp only [List.all_cons, Bool.and_eq_true, decide_eq_true_eq] at hm
    by_cases h1 : a < j
    · simp only [Memory.writeByte, h1, if_true, List.all_cons, Bool.and_eq_true, decide_eq_true_eq]
      exact ⟨ha, hm⟩
    · by_cases h2 : a = j
      · simpa [Memory.writeByte, h2] using hm
      · simp only [Memory.writeByte, h1, h2, if_false, List.all_cons, Bool.and_eq_true, decide_eq_true_eq]
        exact ⟨hm.1, ih hm.2⟩

/-- A byte write inside the address space keeps the canonical form. -/
theorem Memory.wf_writeByte {m : Memory} {a : Nat} {v : Byte} (hm : m.wf = true) (ha : a < 0x100000000) :
    (m.writeByte a v).wf = true := by
  induction m with
  | nil => simpa [Memory.writeByte, Memory.wf] using ha
  | cons c m ih =>
    obtain ⟨k, w⟩ := c
    have hm' := hm
    simp only [Memory.wf, Bool.and_eq_true, decide_eq_true_eq] at hm
    obtain ⟨⟨hk, hall⟩, hwf⟩ := hm
    by_cases h1 : a < k
    · have hall' : m.all (fun c => decide (a < c.1)) = true := by
        simp only [List.all_eq_true, decide_eq_true_eq] at hall ⊢
        exact fun c hc => lt_trans h1 (hall c hc)
      simp only [Memory.writeByte, h1, if_true]
      rw [Memory.wf]
      simp only [List.all_cons, Bool.and_eq_true, decide_eq_true_eq]
      exact ⟨⟨ha, h1, hall'⟩, hm'⟩
    · by_cases h2 : a = k
      · subst h2
        simp only [Memory.writeByte, lt_irrefl, if_false, if_true]
        rw [Memory.wf]
        simp only [Bool.and_eq_true, decide_eq_true_eq]
        exact ⟨⟨hk, hall⟩, hwf⟩
      · simp only [Memory.writeByte, h1, h2, if_false]
        rw [Memory.wf]
        simp only [Bool.and_eq_true, decide_eq_true_eq]
        exact ⟨⟨hk, Memory.all_gt_writeByte hall (by omega)⟩, ih hwf⟩

/-- A store of several bytes inside the address space keeps the canonical form. -/
theorem Memory.wf_writeBytes {m : Memory} {a : Nat} {bs : List Byte} (hm : m.wf = true)
    (ha : a + bs.length ≤ 0x100000000) : (m.writeBytes a bs).wf = true := by
  induction bs generalizing m a with
  | nil => simpa [Memory.writeBytes] using hm
  | cons b bs ih =>
    simp only [List.length_cons] at ha
    exact ih (Memory.wf_writeByte hm (by omega)) (by omega)

/-- The byte read after a store of several bytes. -/
theorem Memory.readByte_writeBytes (m : Memory) (a b : Nat) (bs : List Byte) :
    (m.writeBytes a bs).readByte b =
      if a ≤ b ∧ b < a + bs.length then bs[b - a]? else m.readByte b := by
  induction bs generalizing m a with
  | nil => simp [Memory.writeBytes]
  | cons v bs ih =>
    rw [Memory.writeBytes, ih, Memory.readByte_writeByte]
    by_cases h1 : b = a
    · subst h1; simp
    · by_cases h2 : a + 1 ≤ b ∧ b < a + 1 + bs.length
      · rw [if_pos h2, if_pos (by simp; omega), show b - a = (b - (a + 1)) + 1 by omega]; simp
      · rw [if_neg h2, if_neg h1, if_neg (by simp; omega)]

@[simp] theorem length_littleEndianBytes (n v : Nat) : (littleEndianBytes n v).length = n := by
  induction n generalizing v with
  | zero => rfl
  | succ n ih => simp [littleEndianBytes, ih]

@[simp] theorem length_splitBytes (big : Bool) (n v : Nat) : (splitBytes big n v).length = n := by
  cases big <;> simp [splitBytes]

/-- An allowed access stays inside the address space. -/
theorem accessAllowed_bound {addr : Word} {n : Nat} (h : accessAllowed addr n = true) :
    addr.toNat + n ≤ 0x100000000 := by
  have hlt := addr.isLt
  simp only [accessAllowed, Bool.and_eq_true, List.contains_eq_mem, List.mem_cons, List.not_mem_nil, or_false,
    decide_eq_true_eq, beq_iff_eq] at h
  obtain ⟨rfl | rfl | rfl, h⟩ := h <;> omega

/-- `MemWrite` keeps the canonical form (20 R64). -/
theorem memWrite_wf {s : State} (addr : Word) (n : Nat) (v : BitVec (8 * n)) (hm : s.mem.wf = true) :
    (s.memWrite addr n v).mem.wf = true := by
  rw [State.memWrite_mem]
  split
  · rename_i h
    exact Memory.wf_writeBytes hm (by simpa using accessAllowed_bound h)
  · exact hm

/-- Placing a word at an aligned program counter keeps the canonical form. -/
theorem placeWord_wf {s : State} (w : Nat) (hm : s.mem.wf = true) (hpc : accessAllowed s.pc 4 = true) :
    (s.placeWord w).mem.wf = true :=
  Memory.wf_writeBytes hm (by simpa using accessAllowed_bound hpc)

end Sys2Proof.Machine
end

