-- ==== Sys2Proof/Laws/Fetch.lean ====
section
/-! SUPPORT. Word alignment in its three spellings, the bytes of a word, and what the fetch answers. -/

namespace Sys2Proof.Machine

theorem wordAligned_iff_toNat (a : Word) : wordAligned a = true ↔ a.toNat % 4 = 0 := by
  have h : (a &&& 3#32).toNat = a.toNat % 4 := by
    rw [BitVec.toNat_and]; exact Nat.and_two_pow_sub_one_eq_mod a.toNat 2
  rw [wordAligned, beq_iff_eq, ← h]
  exact ⟨fun e => by rw [e]; rfl, fun e => BitVec.eq_of_toNat_eq e⟩

theorem wordAligned_iff_extract (a : Word) : wordAligned a = true ↔ a.extractLsb' 0 2 = 0#2 := by
  have h : (a.extractLsb' 0 2).toNat = a.toNat % 4 := by simp [BitVec.extractLsb'_toNat]
  rw [wordAligned_iff_toNat, ← h]
  exact ⟨fun e => BitVec.eq_of_toNat_eq e, fun e => by rw [e]; rfl⟩

theorem accessAllowed_four (a : Word) : accessAllowed a 4 = wordAligned a := by
  rw [Bool.eq_iff_iff, wordAligned_iff_toNat]
  simp [accessAllowed]

theorem wordAligned_add_four {a : Word} (h : wordAligned a = true) : wordAligned (a + 4) = true := by
  rw [wordAligned_iff_toNat] at h ⊢
  rw [BitVec.toNat_add]
  have : (4 : Word).toNat = 4 := rfl
  omega

theorem wordAligned_sub_four {a : Word} (h : wordAligned a = true) : wordAligned (a - 4) = true := by
  rw [wordAligned_iff_toNat] at h ⊢
  rw [BitVec.toNat_sub]
  have : (4 : Word).toNat = 4 := rfl
  omega

/-- Four bytes as one word, in either byte order (20 R63). -/
theorem joinBytes_four (big : Bool) (b0 b1 b2 b3 : Byte) :
    BitVec.ofNat 32 (joinBytes big [b0, b1, b2, b3]) =
      if big then b0 ++ b1 ++ b2 ++ b3 else b3 ++ b2 ++ b1 ++ b0 := by
  have key : ∀ a b c d : Byte,
      BitVec.ofNat 32 (((a.toNat * 256 + b.toNat) * 256 + c.toNat) * 256 + d.toNat) = a ++ b ++ c ++ d := by
    intro a b c d
    have ha := a.isLt; have hb := b.isLt; have hc := c.isLt; have hd := d.isLt
    have h1 : (a ++ b).toNat = a.toNat * 256 + b.toNat := by
      rw [BitVec.toNat_append, ← Nat.shiftLeft_add_eq_or_of_lt hb, Nat.shiftLeft_eq]
    have h2 : (a ++ b ++ c).toNat = (a.toNat * 256 + b.toNat) * 256 + c.toNat := by
      rw [BitVec.toNat_append, ← Nat.shiftLeft_add_eq_or_of_lt hc, Nat.shiftLeft_eq, h1]
    apply BitVec.eq_of_toNat_eq
    rw [BitVec.toNat_append, ← Nat.shiftLeft_add_eq_or_of_lt hd, Nat.shiftLeft_eq, h2, BitVec.toNat_ofNat]
    omega
  cases big
  · simpa [joinBytes, joinBigEndian] using key b3 b2 b1 b0
  · simpa [joinBytes, joinBigEndian] using key b0 b1 b2 b3

/-- The bytes of a number of four bytes, joined again, are the number. -/
theorem joinBytes_splitBytes (big : Bool) (v : Nat) (hv : v < 0x100000000) :
    joinBytes big (splitBytes big 4 v) = v := by
  cases big <;> simp [joinBytes, joinBigEndian, splitBytes, littleEndianBytes] <;> omega

/-- The fetch of four bytes that memory holds. -/
theorem fetch_of_readBytes {s : State} {bs : List Byte} (ha : wordAligned s.pc = true)
    (hb : s.mem.readBytes s.pc.toNat 4 = some bs) :
    s.fetch = .ok (BitVec.ofNat 32 (joinBytes s.cfg.bigEndian bs)) := by
  have hm : s.memRead s.pc 4 = some (BitVec.ofNat 32 (joinBytes s.cfg.bigEndian bs)) := by
    rw [State.memRead, accessAllowed_four, if_pos ha, hb]; rfl
  rw [State.fetch, accessAllowed_four, if_pos ha, hm]

/-- The fetch where memory does not hold the four bytes: stuck (20 R62). -/
theorem fetch_of_readBytes_none {s : State} (ha : wordAligned s.pc = true)
    (hb : s.mem.readBytes s.pc.toNat 4 = none) : s.fetch = .error (.fetchUnmapped s.pc) := by
  have hm : s.memRead s.pc 4 = none := by
    rw [State.memRead, accessAllowed_four, if_pos ha, hb]; rfl
  rw [State.fetch, accessAllowed_four, if_pos ha, hm]

/-- Reading several bytes fails exactly where one of them is not held. -/
theorem readBytes_none_iff (m : Memory) (a n : Nat) :
    m.readBytes a n = none ↔ ∃ k, k < n ∧ m.readByte (a + k) = none := by
  induction n generalizing a with
  | zero => simp [Memory.readBytes]
  | succ n ih =>
    have hs : m.readBytes a (n + 1) = none ↔ m.readByte a = none ∨ m.readBytes (a + 1) n = none := by
      cases h1 : m.readByte a <;> cases h2 : m.readBytes (a + 1) n <;> simp [Memory.readBytes, h1, h2]
    rw [hs, ih]
    constructor
    · rintro (h | ⟨k, hk, h⟩)
      · exact ⟨0, by omega, by simpa using h⟩
      · exact ⟨k + 1, by omega, by rw [← h]; congr 1; omega⟩
    · rintro ⟨k, hk, h⟩
      cases k with
      | zero => exact .inl (by simpa using h)
      | succ k => exact .inr ⟨k, by omega, by rw [← h]; congr 1; omega⟩

end Sys2Proof.Machine
end

