-- ==== Sys2Proof/Laws/PerInstr.lean ====
section
/-! SUPPORT. Statements about every instruction, one lemma for each constructor of Instr: the encoder writes a word of the
instruction's own row, with every reserved bit 0 (30 R90, R91). -/

namespace Sys2Proof.Laws

/-- The row of an instruction in the opcode map. -/
def rowIndex : Instr → Fin opcodeRows.length
  | .jr _ => ⟨0, by decide⟩
  | .jalr _ => ⟨1, by decide⟩
  | .maci _ _ => ⟨2, by decide⟩
  | .addi _ _ _ => ⟨3, by decide⟩
  | .addic _ _ _ => ⟨4, by decide⟩
  | .xori _ _ _ => ⟨5, by decide⟩
  | .muli _ _ _ => ⟨6, by decide⟩
  | .lfMaddS _ _ _ => ⟨7, by decide⟩
  | .lfMaddD _ _ _ => ⟨8, by decide⟩
  | .add _ _ _ => ⟨9, by decide⟩
  | .addc _ _ _ => ⟨10, by decide⟩
  | .mul _ _ _ => ⟨11, by decide⟩
  | .div _ _ _ => ⟨12, by decide⟩
  | .divu _ _ _ => ⟨13, by decide⟩
  | .mulu _ _ _ => ⟨14, by decide⟩
  | .ff1 _ _ => ⟨15, by decide⟩
  | .fl1 _ _ => ⟨16, by decide⟩
  | .mfspr _ _ _ => ⟨17, by decide⟩
  | .mtspr _ _ _ => ⟨18, by decide⟩
  | .andi _ _ _ => ⟨19, by decide⟩
  | .ori _ _ _ => ⟨20, by decide⟩
  | .rfe => ⟨21, by decide⟩

/-! ### The formats: the mask keeps the opcode fields, the reserved bits are 0 -/

theorem encodeR_and_mask (op2 : BitVec 2) (op3 : BitVec 4) (d a b : RegNum) : encodeR op2 op3 d a b &&& 0xFC00030F = encodeR op2 op3 0 0 0 := by
  refine BitVec.eq_of_getLsbD_eq fun i hi => ?_
  simp only [encodeR, BitVec.getLsbD_and, BitVec.getLsbD_append]
  interval_cases i <;> simp

theorem encodeR_and_reserved (op2 : BitVec 2) (op3 : BitVec 4) (d a b : RegNum) : encodeR op2 op3 d a b &&& 0x4F0 = 0 := by
  refine BitVec.eq_of_getLsbD_eq fun i hi => ?_
  simp only [encodeR, BitVec.getLsbD_and, BitVec.getLsbD_append]
  interval_cases i <;> simp

theorem encodeRA_and_mask (op2 : BitVec 2) (d a : RegNum) : encodeRA op2 d a &&& 0xFC00030F = encodeRA op2 0 0 := by
  refine BitVec.eq_of_getLsbD_eq fun i hi => ?_
  simp only [encodeRA, BitVec.getLsbD_and, BitVec.getLsbD_append]
  interval_cases i <;> simp

theorem encodeRA_and_reserved (op2 : BitVec 2) (d a : RegNum) : encodeRA op2 d a &&& 0xFCF0 = 0 := by
  refine BitVec.eq_of_getLsbD_eq fun i hi => ?_
  simp only [encodeRA, BitVec.getLsbD_and, BitVec.getLsbD_append]
  interval_cases i <;> simp

theorem encodeI_and_mask (op : BitVec 6) (d a : RegNum) (imm : Imm16) : encodeI op d a imm &&& 0xFC000000 = encodeI op 0 0 0 := by
  refine BitVec.eq_of_getLsbD_eq fun i hi => ?_
  simp only [encodeI, BitVec.getLsbD_and, BitVec.getLsbD_append]
  interval_cases i <;> simp

theorem encodeAI_and_mask (a : RegNum) (imm : Imm16) : encodeAI a imm &&& 0xFC000000 = encodeAI 0 0 := by
  refine BitVec.eq_of_getLsbD_eq fun i hi => ?_
  simp only [encodeAI, BitVec.getLsbD_and, BitVec.getLsbD_append]
  interval_cases i <;> simp

theorem encodeAI_and_reserved (a : RegNum) (imm : Imm16) : encodeAI a imm &&& 0x03E00000 = 0 := by
  refine BitVec.eq_of_getLsbD_eq fun i hi => ?_
  simp only [encodeAI, BitVec.getLsbD_and, BitVec.getLsbD_append]
  interval_cases i <;> simp

theorem encodeJR_and_mask (op : BitVec 6) (b : RegNum) : encodeJR op b &&& 0xFC000000 = encodeJR op 0 := by
  refine BitVec.eq_of_getLsbD_eq fun i hi => ?_
  simp only [encodeJR, BitVec.getLsbD_and, BitVec.getLsbD_append]
  interval_cases i <;> simp

theorem encodeJR_and_reserved (op : BitVec 6) (b : RegNum) : encodeJR op b &&& 0x03FF07FF = 0 := by
  refine BitVec.eq_of_getLsbD_eq fun i hi => ?_
  simp only [encodeJR, BitVec.getLsbD_and, BitVec.getLsbD_append]
  interval_cases i <;> simp

theorem encodeF_and_mask (op8 : BitVec 8) (d a b : RegNum) : encodeF op8 d a b &&& 0xFC0000FF = encodeF op8 0 0 0 := by
  refine BitVec.eq_of_getLsbD_eq fun i hi => ?_
  simp only [encodeF, BitVec.getLsbD_and, BitVec.getLsbD_append]
  interval_cases i <;> simp

theorem encodeF_and_reserved (op8 : BitVec 8) (d a b : RegNum) : encodeF op8 d a b &&& 0x700 = 0 := by
  refine BitVec.eq_of_getLsbD_eq fun i hi => ?_
  simp only [encodeF, BitVec.getLsbD_and, BitVec.getLsbD_append]
  interval_cases i <;> simp

theorem encodeMTSPR_and_mask (a b : RegNum) (imm : Imm16) : encodeMTSPR a b imm &&& 0xFC000000 = encodeMTSPR 0 0 0 := by
  refine BitVec.eq_of_getLsbD_eq fun i hi => ?_
  simp only [encodeMTSPR, BitVec.getLsbD_and, BitVec.getLsbD_append]
  interval_cases i <;> simp

/-- The canonical word of an instruction is a word of its row with no reserved bit set. -/
def EncodesItsRow.Statement (i : Instr) : Prop :=
  encode i &&& opcodeRows[rowIndex i].mask = opcodeRows[rowIndex i].pattern ∧
  encode i &&& opcodeRows[rowIndex i].reserved = 0

namespace EncodesItsRow

theorem jr (b : RegNum) : Statement (.jr b) := ⟨(encodeJR_and_mask _ _).trans rfl, encodeJR_and_reserved _ _⟩
theorem jalr (b : RegNum) : Statement (.jalr b) := ⟨(encodeJR_and_mask _ _).trans rfl, encodeJR_and_reserved _ _⟩
theorem maci (a : RegNum) (imm : Imm16) : Statement (.maci a imm) := ⟨(encodeAI_and_mask _ _).trans rfl, encodeAI_and_reserved _ _⟩
theorem addi (d a : RegNum) (imm : Imm16) : Statement (.addi d a imm) := ⟨(encodeI_and_mask _ _ _ _).trans rfl, BitVec.and_zero⟩
theorem addic (d a : RegNum) (imm : Imm16) : Statement (.addic d a imm) := ⟨(encodeI_and_mask _ _ _ _).trans rfl, BitVec.and_zero⟩
theorem xori (d a : RegNum) (imm : Imm16) : Statement (.xori d a imm) := ⟨(encodeI_and_mask _ _ _ _).trans rfl, BitVec.and_zero⟩
theorem muli (d a : RegNum) (imm : Imm16) : Statement (.muli d a imm) := ⟨(encodeI_and_mask _ _ _ _).trans rfl, BitVec.and_zero⟩
theorem lfMaddS (d a b : RegNum) : Statement (.lfMaddS d a b) := ⟨(encodeF_and_mask _ _ _ _).trans rfl, encodeF_and_reserved _ _ _ _⟩
theorem lfMaddD (d a b : RegNum) : Statement (.lfMaddD d a b) := ⟨(encodeF_and_mask _ _ _ _).trans rfl, encodeF_and_reserved _ _ _ _⟩
theorem add (d a b : RegNum) : Statement (.add d a b) := ⟨(encodeR_and_mask _ _ _ _ _).trans rfl, encodeR_and_reserved _ _ _ _ _⟩
theorem addc (d a b : RegNum) : Statement (.addc d a b) := ⟨(encodeR_and_mask _ _ _ _ _).trans rfl, encodeR_and_reserved _ _ _ _ _⟩
theorem mul (d a b : RegNum) : Statement (.mul d a b) := ⟨(encodeR_and_mask _ _ _ _ _).trans rfl, encodeR_and_reserved _ _ _ _ _⟩
theorem div (d a b : RegNum) : Statement (.div d a b) := ⟨(encodeR_and_mask _ _ _ _ _).trans rfl, encodeR_and_reserved _ _ _ _ _⟩
theorem divu (d a b : RegNum) : Statement (.divu d a b) := ⟨(encodeR_and_mask _ _ _ _ _).trans rfl, encodeR_and_reserved _ _ _ _ _⟩
theorem mulu (d a b : RegNum) : Statement (.mulu d a b) := ⟨(encodeR_and_mask _ _ _ _ _).trans rfl, encodeR_and_reserved _ _ _ _ _⟩
theorem ff1 (d a : RegNum) : Statement (.ff1 d a) := ⟨(encodeRA_and_mask _ _ _).trans rfl, encodeRA_and_reserved _ _ _⟩
theorem fl1 (d a : RegNum) : Statement (.fl1 d a) := ⟨(encodeRA_and_mask _ _ _).trans rfl, encodeRA_and_reserved _ _ _⟩
theorem rfe : Statement .rfe := ⟨by decide, by decide⟩
theorem andi (d a : RegNum) (imm : Imm16) : Statement (.andi d a imm) := ⟨(encodeI_and_mask _ _ _ _).trans rfl, BitVec.and_zero⟩
theorem ori (d a : RegNum) (imm : Imm16) : Statement (.ori d a imm) := ⟨(encodeI_and_mask _ _ _ _).trans rfl, BitVec.and_zero⟩
theorem mfspr (d a : RegNum) (imm : Imm16) : Statement (.mfspr d a imm) := ⟨(encodeI_and_mask _ _ _ _).trans rfl, BitVec.and_zero⟩
theorem mtspr (a b : RegNum) (imm : Imm16) : Statement (.mtspr a b imm) := ⟨(encodeMTSPR_and_mask _ _ _).trans rfl, BitVec.and_zero⟩

end EncodesItsRow

end Sys2Proof.Laws
end

