-- ==== Sys2Proof/Tests/Slice0.lean ====
section
/-! SUPPORT. The model's own tests. Expected values are those of spec/95_test_vectors.md (named V-…, S…) or of the rule
named beside them; words are the spec's own or written out from its encoding tables. Then, for every statement with
hypotheses, a state and operands that meet them. -/

namespace Sys2Proof.Tests

open Sys2Proof.Machine Sys2Proof.Safety

/-! ### Helpers -/

/-- A machine at 0x2000 with some registers set; otherwise as after reset. -/
def machineWith (regs : List (RegNum × Word)) : State :=
  regs.foldl (fun s p => s.writeGpr p.1 p.2) { State.reset with pc := 0x00002000#32 }

/-- One step of a machine with a word placed where it fetches. -/
def stepWord (w : Nat) (s : State) : Result := step (s.withFetchWord 32 w)

/-- Something read from the next state, if there is one. -/
def seen {α : Type} (f : State → α) : Result → Option α
  | .next t => some (f t)
  | _ => none

/-- The refusal, if it is one. -/
def refusalIn : Result → Option Refusal
  | .refused r => some r
  | _ => none

/-- The fault, if it is one. -/
def faultIn : Result → Option Fault
  | .fault f => some f
  | _ => none

/-- A register and the two flags. -/
def resultIn (d : RegNum) (t : State) : Word × Bool × Bool := (t.readGpr d, t.flag .CY, t.flag .OV)

/-- What an exception has left: ESR0, EPCR0, EEAR0, SR, `pc`. -/
def entryOf (t : State) : Word × Word × Word × Word × Word := (t.esr0, t.epcr0, t.eear0, t.sr, t.pc)

def isNext : Result → Bool
  | .next _ => true
  | _ => false

theorem next_of_isNext {r : Result} (h : isNext r = true) : ∃ t, r = .next t := by
  cases r with
  | next t => exact ⟨t, rfl⟩
  | fault _ => cases h
  | refused _ => cases h

/-! ### Well-formedness: its one check, `l.jalr` of the link register (42 R141) -/

theorem test_wellFormed_refuses_jalr_link : Instr.wellFormed (.jalr 9) = false := by decide
theorem test_wellFormed_jalr : Instr.wellFormed (.jalr 8) = true := by decide

/-! ### Decoding: for every constructor a word written out by the spec, or from its encoding -/

theorem test_decode_jr : decode .refuse 0x44004800#32 = .ok (.jr 9) := by decide
theorem test_decode_jalr : decode .refuse 0x48002000#32 = .ok (.jalr 4) := by decide
theorem test_decode_maci : decode .refuse 0x4C03FFFE#32 = .ok (.maci 3 0xFFFE) := by decide
theorem test_decode_addi : decode .refuse 0x9C837FFF#32 = .ok (.addi 4 3 0x7FFF) := by decide
theorem test_decode_addic : decode .refuse 0xA0C7FFFF#32 = .ok (.addic 6 7 0xFFFF) := by decide
theorem test_decode_xori : decode .refuse 0xAC8300FF#32 = .ok (.xori 4 3 0xFF) := by decide
theorem test_decode_muli : decode .refuse 0xB0A3FFFD#32 = .ok (.muli 5 3 0xFFFD) := by decide
theorem test_decode_lfMaddS : decode .refuse 0xC8A32007#32 = .ok (.lfMaddS 5 3 4) := by decide
theorem test_decode_lfMaddD : decode .refuse 0xC8A32017#32 = .ok (.lfMaddD 5 3 4) := by decide
theorem test_decode_add : decode .refuse 0xE0A63800#32 = .ok (.add 5 6 7) := by decide
theorem test_decode_addc : decode .refuse 0xE0C74001#32 = .ok (.addc 6 7 8) := by decide
theorem test_decode_mul : decode .refuse 0xE0A32306#32 = .ok (.mul 5 3 4) := by decide
theorem test_decode_div : decode .refuse 0xE0A32309#32 = .ok (.div 5 3 4) := by decide
theorem test_decode_divu : decode .refuse 0xE0A3230A#32 = .ok (.divu 5 3 4) := by decide
theorem test_decode_mulu : decode .refuse 0xE0A3230B#32 = .ok (.mulu 5 3 4) := by decide
theorem test_decode_ff1 : decode .refuse 0xE083000F#32 = .ok (.ff1 4 3) := by decide
theorem test_decode_fl1 : decode .refuse 0xE083010F#32 = .ok (.fl1 4 3) := by decide
theorem test_decode_mfspr : decode .refuse 0xB4602801#32 = .ok (.mfspr 3 0 0x2801) := by decide
theorem test_decode_mtspr : decode .refuse 0xC1201800#32 = .ok (.mtspr 0 3 0x4800) := by decide
theorem test_decode_andi : decode .refuse 0xA48300FF#32 = .ok (.andi 4 3 0xFF) := by decide
theorem test_decode_ori : decode .refuse 0xA8638000#32 = .ok (.ori 3 3 0x8000) := by decide
theorem test_decode_rfe : decode .refuse 0x24000000#32 = .ok .rfe := by decide
/-- 30 R91 and 95 section 2.5: a reserved bit of `l.ff1`. -/
theorem test_decode_reserved : decode .refuse 0xE083080F#32 = .error .reservedBits ∧
    decode .ignore 0xE083080F#32 = .ok (.ff1 4 3) := by decide
/-- 30 R92: `l.nop` is no row's word. -/
theorem test_decode_unlisted : decode .ignore 0x15000000#32 = .error .unlisted := by decide
theorem test_decodeTableWord : decodeTableWord 32 0xE0A32000 = some (.add 5 3 4) := by decide

/-! ### One step of each instruction -/

/-- V-ADD4, V-ADD5. -/
theorem test_add_both_flags : seen (resultIn 5) (stepWord 0xE0A32000 (machineWith [(3, 0x80000000), (4, 0x80000000)])) =
    some (0x00000000, true, true) := by decide
theorem test_add_most_negative : seen (resultIn 5)
    (stepWord 0xE0A32000 (machineWith [(3, 0x80000000), (4, 0xFFFFFFFF)])) = some (0x7FFFFFFF, true, true) := by decide

/-- V-ADC5: the carry-in cancels the overflow. -/
theorem test_addc_carry_in : seen (resultIn 6)
    (stepWord 0xE0C74001 { machineWith [(7, 0x80000000), (8, 0xFFFFFFFF)] with sr := 0x00008401#32 }) =
    some (0x80000000, true, false) := by decide

/-- V-ADI4. -/
theorem test_addi_most_negative_immediate : seen (resultIn 4) (stepWord 0x9C838000 (machineWith [(3, 0x80000000)])) =
    some (0x7FFF8000, true, true) := by decide

/-- V-AIC5. -/
theorem test_addic_carry_out : seen (resultIn 4)
    (stepWord 0xA0830001 { machineWith [(3, 0xFFFFFFFE)] with sr := 0x00008401#32 }) =
    some (0x00000000, true, false) := by decide

def rangeMachine : State := { machineWith [(6, 0x7FFFFFFF), (7, 1)] with pc := 0x00002008#32, sr := 0x00009001#32 }

/-- V-RNG1. -/
theorem test_range_commits : seen (fun t => (entryOf t, t.readGpr 5)) (stepWord 0xE0A63800 rangeMachine) =
    some ((0x00009801, 0x00002008, 0x00000000, 0x00008801, 0x00000B00), 0x80000000) := by decide

/-- V-RNG3. -/
theorem test_range_without_commit : seen (fun t => (entryOf t, t.readGpr 5))
    (stepWord 0xE0A63800 { rangeMachine with cfg := { resetConfig with rangeCommits := false } }) =
    some ((0x00009001, 0x00002008, 0x00000000, 0x00008001, 0x00000B00), 0x00000000) := by decide

/-- V-DIV1, V-DIV7: truncation toward zero. -/
theorem test_div_truncates : seen (resultIn 5) (stepWord 0xE0A32309 (machineWith [(3, 0xFFFFFFF9), (4, 2)])) =
    some (0xFFFFFFFD, false, false) := by decide
/-- V-DIV10: the flags of a zero divisor, whatever the quotient. -/
theorem test_div_by_zero : seen (fun t => (t.flag .CY, t.flag .OV, t.pc))
    (stepWord 0xE0A32309 (machineWith [(3, 0x12345678)])) = some (true, false, 0x00002004) := by decide

/-- V-DVU1. -/
theorem test_divu : seen (resultIn 5) (stepWord 0xE0A3230A (machineWith [(3, 0xFFFFFFF9), (4, 2)])) =
    some (0x7FFFFFFC, false, false) := by decide

/-- V-FF4, V-FF1. -/
theorem test_ff1 : seen (·.readGpr 4) (stepWord 0xE083000F (machineWith [(3, 0x18)])) = some 4 := by decide
theorem test_ff1_zero : seen (·.readGpr 4) (stepWord 0xE083000F (machineWith [(4, 7)])) = some 0 := by decide

/-- V-FF4, V-FF8. -/
theorem test_fl1 : seen (·.readGpr 4) (stepWord 0xE083010F (machineWith [(3, 0x18)])) = some 5 := by decide
theorem test_fl1_high : seen (·.readGpr 4) (stepWord 0xE083010F (machineWith [(3, 0x7FFFFFFE)])) = some 0x1F := by decide

/-- V-JR1, V-JR2. -/
theorem test_jr : seen (fun t => (t.pc, t.ds)) (stepWord 0x44004800 (machineWith [(9, 0x00002008)])) =
    some (0x00002004, some 0x00002008) := by decide
theorem test_jr_misaligned : seen entryOf (stepWord 0x44002000 (machineWith [(4, 0x00003002)])) =
    some (0x00008001, 0x00002000, 0x00003002, 0x00008001, 0x00000600) := by decide

/-- V-JAL1, V-JAL3. -/
theorem test_jalr : seen (fun t => (t.readGpr 9, t.pc, t.ds)) (stepWord 0x48002000 (machineWith [(4, 0x00003000)])) =
    some (0x00002008, 0x00002004, some 0x00003000) := by decide
theorem test_jalr_link : seen (fun t => (entryOf t, t.readGpr 9))
    (stepWord 0x48004800 (machineWith [(9, 0x00003002)])) =
    some ((0x00008001, 0x00002000, 0x00002000, 0x00008001, 0x00000700), 0x00003002) := by decide

/-- V-JAL7: Range in a delay slot. -/
theorem test_range_in_delay_slot : seen (fun t => (t.epcr0, t.flag .DSX, t.ds, t.pc))
    (stepWord 0xE0A63800 { rangeMachine with pc := 0x00002004#32, ds := some 0x00003000#32 }) =
    some (0x00002000, true, none, 0x00000B00) := by decide
/-- V-JAL6. -/
theorem test_jr_in_delay_slot :
    refusalIn (stepWord 0x44002000 { machineWith [(4, 0x00003000)] with ds := some 0x00003000#32 }) =
      some .transferInDelaySlot := by decide

/-- V-MAC2, V-MAC5. -/
theorem test_maci_truncates : seen (fun t => (t.machi, t.maclo)) (stepWord 0x4C034000 (machineWith [(3, 0x00020000)])) =
    some (0xFFFFFFFF, 0x80000000) := by decide
theorem test_maci_carries : seen (fun t => (t.machi, t.maclo))
    (stepWord 0x4C030002 { machineWith [(3, 0x10)] with machi := 0x12#32, maclo := 0xFFFFFFF0#32 }) =
    some (0x13, 0x10) := by decide

/-- V-MUL9, V-MUL10. -/
theorem test_mul_fits : seen (resultIn 5) (stepWord 0xE0A32306 (machineWith [(3, 0x00010000), (4, 0xFFFF8000)])) =
    some (0x80000000, true, false) := by decide
theorem test_mul_overflows : seen (resultIn 5) (stepWord 0xE0A32306 (machineWith [(3, 0x00010000), (4, 0x00008000)])) =
    some (0x80000000, false, true) := by decide

/-- V-MLI7. -/
theorem test_muli : seen (resultIn 5) (stepWord 0xB0A3FFFF (machineWith [(3, 0x80000000)])) =
    some (0x80000000, true, true) := by decide

/-- V-MLU6: no Range exception. -/
theorem test_mulu : seen (fun t => (resultIn 5 t, t.pc))
    (stepWord 0xE0A3230B { machineWith [(3, 0xFFFFFFFF), (4, 0xFFFFFFFF)] with sr := 0x00009001#32 }) =
    some ((0x00000001, true, false), 0x00002004) := by decide

/-- V-XOR2, under both settings. -/
theorem test_xori_sign : seen (·.readGpr 4) (stepWord 0xAC83FFFF (machineWith [(3, 0x12345678)])) =
    some 0xEDCBA987 := by decide
theorem test_xori_zero : seen (·.readGpr 4)
    (stepWord 0xAC83FFFF { machineWith [(3, 0x12345678)] with cfg := { resetConfig with xoriExt := .zero } }) =
    some 0x1234A987 := by decide

/-- V-FP1, and 44 R191 with the FPU: the step goes on, whatever the result. -/
theorem test_lfMaddS_absent : refusalIn (stepWord 0xC8A32007 { machineWith [] with cfg := defaultConfig }) =
    some .fpuAbsent := by decide
theorem test_lfMaddS : seen (·.pc) (stepWord 0xC8A32007 (machineWith [])) = some 0x00002004 := by decide

/-- V-FP4. -/
theorem test_lfMaddD :
    refusalIn (stepWord 0xC8A32017 (machineWith [])) = some .doublePrecisionNotApplicable := by decide

/-- V-SPR1, V-SPR8. -/
theorem test_mfspr : seen (·.readGpr 3) (stepWord 0xB4602801 { machineWith [] with maclo := 0x2A#32 }) = some 0x2A := by
  decide
theorem test_mfspr_upr : refusalIn (stepWord 0xB4600001 (machineWith [])) = some (.sprNotHeld 0x0001) := by decide

/-- V-SPR5, V-SPR3. -/
theorem test_mtspr_sr : seen (·.sr) (stepWord 0xC0001811 (machineWith [(3, 0x00000005)])) = some 0x00008005 := by decide
theorem test_mtspr_picmr : seen (·.picmr) (stepWord 0xC1201800 (machineWith [(3, 0)])) = some 0x00000003 := by decide

/-- V-PIC6: a line still asserted is not cleared. -/
theorem test_mtspr_picsr_held : seen (·.picsr)
    (stepWord 0xC1200002 { machineWith [] with picsr := 4#32, picmr := 7#32, irqInput := [4#32] }) = some 4 := by decide
/-- V-PIC7. -/
theorem test_mtspr_picsr_clears : seen (·.picsr)
    (stepWord 0xC1201802 { machineWith [(3, 4)] with picsr := 5#32, irqInput := [0#32] }) = some 4 := by decide

/-- V-PIC8, under the default. -/
theorem test_mtspr_picsr_one : refusalIn
    (stepWord 0xC1201802 { machineWith [(3, 4)] with cfg := defaultConfig, irqInput := [0#32] }) =
    some (.picsrOneToClearBit 4) := by decide

/-- V-AND2, V-ORI2. -/
theorem test_andi : seen (·.readGpr 4) (stepWord 0xA483FFFF (machineWith [(3, 0xFFFFFFFF)])) = some 0x0000FFFF := by decide
theorem test_ori : seen (·.readGpr 3) (stepWord 0xA8638000 (machineWith [(3, 0x12340000)])) = some 0x12348000 := by decide

/-- V-RFE1, V-RFE3. -/
theorem test_rfe : seen (fun t => (t.pc, t.sr, t.ds))
    (stepWord 0x24000000 { machineWith [] with epcr0 := 0x2004#32, esr0 := 0x8005#32 }) =
    some (0x00002004, 0x00008005, none) := by decide
theorem test_rfe_misaligned : refusalIn (stepWord 0x24000000 { machineWith [] with epcr0 := 0x2002#32 }) =
    some (.returnMisaligned 0x2002) := by decide

def interruptedMachine : State :=
  { machineWith [] with pc := 0x00002014#32, sr := 0x00008405#32, picmr := 7#32, irqInput := [4#32] }

/-- V-PIC10, V-PIC11. -/
theorem test_interrupt : seen (fun t => (entryOf t, t.picsr)) (step interruptedMachine) =
    some ((0x00008405, 0x00002014, 0x00000000, 0x00008401, 0x00000800), 4) := by decide
theorem test_interrupt_in_delay_slot : seen (fun t => (entryOf t, t.ds))
    (step { interruptedMachine with pc := 0x00002004#32, ds := some 0x00003000#32 }) =
    some ((0x00008405, 0x00002000, 0x00000000, 0x0000A401, 0x00000800), none) := by decide
/-- V-PIC1: a masked line is not latched. -/
theorem test_masked_line : { machineWith [] with irqInput := [4#32] : State }.sample.picsr = 0#32 := by decide

/-- 92 D4: with 16 registers, `l.addc r6,r7,r8` runs and `l.andi r16,r0,0` does not. -/
theorem test_ngpr : ∀ s ∈ [{ machineWith [] with cfg := { resetConfig with numGprs := 16 } : State }],
    seen (·.pc) (stepWord 0xE0C74001 s) = some 0x00002004 ∧
    refusalIn (stepWord 0xA6000000 s) = some (.gprNotImplemented 0xA6000000) := by decide

/-- 70 R289; 20 R62. -/
theorem test_run_ended :
    faultIn (step { machineWith [] with cfg := { resetConfig with haltAddr := some 0x2000#32 } }) = some .runEnded := by decide
theorem test_fetch_from_nothing : faultIn (step State.reset) = some (.fetchUnmapped 0x100) := by decide

theorem test_reset_memory_wf : State.reset.mem.wf = true := by decide

/-! ### For every statement with hypotheses, a state and operands that meet them

Each is named after its statement; where the statement has several clauses, one is given for each. -/

/-- `l.add r5,r3,r4` at 0x2000. -/
def adding : State := (machineWith [(3, 1), (4, 2)]).withFetchWord 32 0xE0A32000

theorem witness_EncodeOfDecode : decode .refuse 0xE0A32000#32 = .ok (.add 5 3 4) := by decide

theorem witness_AtMostOneRowAccepts : opcodeRows[(⟨21, by decide⟩ : Fin opcodeRows.length)].accepts 0x24000000#32 = true := by decide

/-- `l.ff1 r4,r3` with bit 11 set, under either policy. -/
def reservedSet (policy : ReservedBits) : State :=
  { machineWith [] with cfg := { resetConfig with reservedBits := policy } }.withFetchWord 32 0xE083080F

theorem witness_ReservedBitsPolicyDecides : ∀ policy ∈ [ReservedBits.refuse, .ignore],
    (reservedSet policy).sample.interruptTaken = false ∧ (reservedSet policy).cfg.haltAddr ≠ some (reservedSet policy).pc ∧
    (reservedSet policy).sample.fetch = .ok 0xE083080F#32 ∧
    opcodeRows[(⟨15, by decide⟩ : Fin opcodeRows.length)].accepts 0xE083080F#32 = true ∧
    0xE083080F#32 &&& opcodeRows[(⟨15, by decide⟩ : Fin opcodeRows.length)].reserved ≠ 0#32 ∧
    (reservedSet policy).cfg.reservedBits = policy ∧
    ∀ r ∈ (opcodeRows[(⟨15, by decide⟩ : Fin opcodeRows.length)].build 0xE083080F#32).registers,
      r.toNat < (reservedSet policy).cfg.numGprs := by decide

theorem witness_UnlistedWordRefused :
    let s := (machineWith []).withFetchWord 32 0x15000000
    s.sample.interruptTaken = false ∧ s.cfg.haltAddr ≠ some s.pc ∧ s.sample.fetch = .ok 0x15000000#32 ∧
    ∀ k : Fin opcodeRows.length, opcodeRows[k].accepts 0x15000000#32 = false := by decide

theorem witness_StepRunsDecodedInstruction :
    adding.sample.interruptTaken = false ∧ adding.cfg.haltAddr ≠ some adding.pc ∧
    adding.sample.fetch = .ok 0xE0A32000#32 ∧ decode adding.cfg.reservedBits 0xE0A32000#32 = .ok (.add 5 3 4) ∧
    (∀ r ∈ (Instr.add 5 3 4).registers, r.toNat < adding.cfg.numGprs) ∧ adding.cfg.numGprs = 32 := by decide

/-- The same with r0 to r4 only: r5 is the first that is left out. -/
theorem witness_StepRunsDecodedInstruction_absent :
    let s := { adding with cfg := { resetConfig with numGprs := 5 } }
    s.sample.interruptTaken = false ∧ s.cfg.haltAddr ≠ some s.pc ∧ s.sample.fetch = .ok 0xE0A32000#32 ∧
    decode s.cfg.reservedBits 0xE0A32000#32 = .ok (.add 5 3 4) ∧
    ∃ r ∈ (Instr.add 5 3 4).registers, s.cfg.numGprs ≤ r.toNat := by decide

/-- A machine without a PIC. -/
def withoutPic : State := { machineWith [] with cfg := { resetConfig with picPresent := false } }

theorem witness_SamplingLatchesLines :
    interruptedMachine.cfg.picPresent = true ∧ interruptedMachine.irqInput = [4#32] ∧ withoutPic.cfg.picPresent = false ∧
    (machineWith []).irqInput = [] := by decide

theorem witness_StepTakesInterrupt : interruptedMachine.sample.interruptTaken = true := by decide

/-- `l.add` at the last word of the address space. -/
def lastWord : State := { machineWith [] with pc := 0xFFFFFFFC#32 }.withFetchWord 32 0xE0A32000

theorem witness_FetchReadsFourBytes : wordAligned lastWord.pc = true ∧
    lastWord.mem.readByte lastWord.pc.toNat = some 0xE0#8 ∧ lastWord.mem.readByte (lastWord.pc.toNat + 1) = some 0xA3#8 ∧
    lastWord.mem.readByte (lastWord.pc.toNat + 2) = some 0x20#8 ∧
    lastWord.mem.readByte (lastWord.pc.toNat + 3) = some 0x00#8 := by decide

theorem witness_FetchFromNothingIsStuck : wordAligned (machineWith []).pc = true ∧
    (machineWith []).mem.readByte ((machineWith []).pc.toNat + 3) = none ∧
    (machineWith []).sample.interruptTaken = false ∧ (machineWith []).cfg.haltAddr ≠ some (machineWith []).pc := by decide

theorem witness_RunEndsExactlyAtHaltAddr : (machineWith []).cfg.haltAddr = none ∧
    faultIn (step { machineWith [] with cfg := { resetConfig with haltAddr := some 0x2000#32 } }) = some .runEnded := by
  decide

theorem witness_PlacedWordIsFetched : wordAligned lastWord.pc = true ∧ wordAligned (machineWith []).pc = true := by decide

theorem resetConfig_legal : ConfigLegal resetConfig := by
  refine ⟨fun sr e => ?_, by decide, by decide⟩
  unfold vectorAddress
  cases getSr sr .EPH <;> cases e <;> decide

theorem witness_ResetMeetsInvariant : ConfigLegal State.reset.cfg := resetConfig_legal

theorem inv_of_default {s : State} (hc : s.cfg = resetConfig) (hd : s.ds = none ∨ s.ds = some 0x3000#32)
    (h : s.mem.wf = true ∧ wordAligned s.pc = true ∧ s.sr &&& 0xFFFF81E2#32 = 0x00008000#32 ∧ s.picmr &&& 3#32 = 3#32 ∧
      s.fpcsr &&& 0xFFFFF000#32 = 0#32) : Inv s := by
  refine ⟨hc ▸ resetConfig_legal, h.1, h.2.1, fun target ht => ?_, h.2.2⟩
  rcases hd with hd | hd <;> rw [hd] at ht <;> cases ht
  decide

theorem witness_StepKeepsInvariant : Inv adding ∧ ∃ t, step adding = .next t :=
  ⟨inv_of_default rfl (.inl rfl) (by decide), next_of_isNext (by decide)⟩

theorem witness_StepKeepsMemoryAndParameters : ∃ t, step adding = .next t := next_of_isNext (by decide)

/-- `l.mtspr r0,r3,0x4802` of 4 to PICSR = 5, the lines low: bit 0 is cleared, bit 2 stays. -/
def clearing : State :=
  { machineWith [(3, 4)] with picsr := 5#32, irqInput := [0#32] }.withFetchWord 32 0xC1201802

theorem witness_LatchedBitStays :
    (∃ t, step clearing = .next t) ∧ clearing.picsr.getLsbD 0 = true ∧ clearing.picsr.getLsbD 2 = true ∧
    seen (·.picsr.getLsbD 0) (step clearing) = some false ∧ seen (·.picsr.getLsbD 2) (step clearing) = some true :=
  ⟨next_of_isNext (by decide), by decide, by decide, by decide, by decide⟩

/-- An overflowing `l.add` in user mode with OVE set. -/
def userRange : State :=
  { machineWith [(6, 0x7FFFFFFF), (7, 1)] with sr := 0x00009000#32 }.withFetchWord 32 0xE0A63800

theorem witness_SupervisorEnteredOnlyByException :
    (∃ t, step userRange = .next t) ∧ userRange.flag .SM = false ∧ seen (·.flag .SM) (step userRange) = some true :=
  ⟨next_of_isNext (by decide), by decide, by decide⟩

/-- `l.rfe` to user mode, and `l.mtspr` of a user-mode value to SR. -/
def leavingByRfe : State := { machineWith [] with esr0 := 0x00008000#32 }.withFetchWord 32 0x24000000
def leavingByMtspr : State := (machineWith [(3, 0)]).withFetchWord 32 0xC0001811

theorem witness_UserModeEnteredOnlyByRfeOrMtspr : ∀ s ∈ [leavingByRfe, leavingByMtspr],
    isNext (step s) = true ∧ s.flag .SM = true ∧ seen (·.flag .SM) (step s) = some false := by decide

/-- One that takes an exception, one that goes on, the one that writes the accumulator and the one that writes FPCSR. -/
theorem witness_UserModeKeepsSupervisorState : userRange.flag .SM = false ∧
    ∀ i ∈ [Instr.add 5 6 7, .ff1 5 6, .maci 6 1, .lfMaddS 5 6 7], isNext (exec i userRange) = true := by decide

theorem witness_UserModeCannotReadSupervisorState :
    (∃ t, exec (.add 5 6 7) userRange = .next t) ∧ userRange.flag .SM = false :=
  ⟨next_of_isNext (by decide), by decide⟩

theorem witness_ArithmeticTouchesNothingElse :
    ((additionOf adding (.add 5 3 4)).map (·.1) = some 5 ∧ ∃ t, exec (.add 5 3 4) adding = .next t) ∧
    ((multiplicationOf adding (.mul 5 3 4)).map (·.1) = some 5 ∧ ∃ t, exec (.mul 5 3 4) adding = .next t) ∧
    ((divisionOf adding (.div 5 3 4)).map (·.1) = some 5 ∧ ∃ t, exec (.div 5 3 4) adding = .next t) ∧
    (∃ t, exec (.mulu 5 3 4) adding = .next t) ∧ (∃ t, exec (.ff1 5 3) adding = .next t) ∧
    (∃ t, exec (.xori 5 3 0xFFFF) adding = .next t) ∧ (∃ t, exec (.maci 3 0xFFFE) adding = .next t) :=
  ⟨⟨by decide, next_of_isNext (by decide)⟩, ⟨by decide, next_of_isNext (by decide)⟩,
    ⟨by decide, next_of_isNext (by decide)⟩, next_of_isNext (by decide), next_of_isNext (by decide),
    next_of_isNext (by decide), next_of_isNext (by decide)⟩

/-- A machine in the delay slot of a jump to 0x3000. -/
def inSlot : State := { machineWith [(3, 1), (4, 2)] with ds := some 0x00003000#32 }

theorem witness_ExceptionAddresses : inSlot.ds ≠ none ∧ (machineWith []).ds = none := by decide

theorem witness_TrapThenReturnRestores : Inv inSlot ∧ inSlot.cfg.companionSet = true ∧ Inv (machineWith []) :=
  ⟨inv_of_default rfl (.inr rfl) (by decide), by decide, inv_of_default rfl (.inl rfl) (by decide)⟩

/-- A machine at the last word, in a delay slot: it can go on although `pc + 4` would wrap. -/
def lastInSlot : State := { inSlot with pc := 0xFFFFFFFC#32 }

/-- Operands at the edge of what a signed word holds, OVE set: 0x7FFFFFFE + 1 fits, 0x7FFFFFFF + 1 does not. -/
def edge (r3 r4 : Word) : State := { machineWith [(3, r3), (4, r4)] with sr := 0x00009001#32 }

theorem canGoOn_edge (r3 r4 : Word) : CanGoOn (edge r3 r4) := .inr (show (0x2000#32).toNat + 4 < 0x100000000 by decide)
theorem canGoOn_lastInSlot : CanGoOn lastInSlot := .inl (by decide)
theorem canGoOn_adding : CanGoOn adding := .inr (show (0x2000#32).toNat + 4 < 0x100000000 by decide)

theorem witness_AddCompletes : (edge 0x7FFFFFFE 1).readGpr 3 = 0x7FFFFFFE#32 ∧ (edge 0x7FFFFFFE 1).readGpr 4 = 1#32 ∧
    CanGoOn (edge 0x7FFFFFFE 1) ∧ (edge 0x7FFFFFFE 1).flag .OVE = true ∧
    FitsSigned ((0x7FFFFFFE#32).toInt + (1#32).toInt) :=
  ⟨by decide, by decide, canGoOn_edge _ _, by decide, by decide⟩

theorem witness_AddcCompletes : (edge 0x80000000 0).readGpr 3 = 0x80000000#32 ∧ (edge 0x80000000 0).readGpr 4 = 0#32 ∧
    0 = (if (edge 0x80000000 0).flag .CY then 1 else 0) ∧ CanGoOn (edge 0x80000000 0) ∧
    FitsSigned ((0x80000000#32).toInt + (0#32).toInt + (0 : Nat)) :=
  ⟨by decide, by decide, by decide, canGoOn_edge _ _, by decide⟩

theorem witness_AddiCompletes : (edge 0 0).readGpr 3 = 0#32 ∧ (0x8000#16).signExtend 32 = 0xFFFF8000#32 ∧
    CanGoOn (edge 0 0) ∧ FitsSigned ((0#32).toInt + (0x8000#16).toInt) :=
  ⟨by decide, by decide, canGoOn_edge _ _, by decide⟩

theorem witness_AddicCompletes : (edge 0 0).readGpr 3 = 0#32 ∧ (0x7FFF#16).signExtend 32 = 0x7FFF#32 ∧
    0 = (if (edge 0 0).flag .CY then 1 else 0) ∧ CanGoOn (edge 0 0) ∧
    FitsSigned ((0#32).toInt + (0x7FFF#16).toInt + (0 : Nat)) :=
  ⟨by decide, by decide, by decide, canGoOn_edge _ _, by decide⟩

theorem witness_AdditionTakesRange :
    additionOf (edge 0x7FFFFFFF 1) (.add 5 3 4) = some (5, 0x7FFFFFFF#32, 1#32, false) ∧
    (edge 0x7FFFFFFF 1).flag .OVE = true ∧
    ¬FitsSigned ((0x7FFFFFFF#32).toInt + (1#32).toInt + carryIn false) := by decide

theorem witness_MultiplicationTakesRange :
    multiplicationOf (edge 0x80000000 0xFFFFFFFF) (.mul 5 3 4) = some (5, 0x80000000#32, 0xFFFFFFFF#32) ∧
    (edge 0x80000000 0xFFFFFFFF).flag .OVE = true ∧
    (edge 0x80000000 0xFFFFFFFF).cfg.mulCarry = .ucarry ∧
    ¬FitsSigned ((0x80000000#32).toInt * (0xFFFFFFFF#32).toInt) := by decide

/-- The edge without commit, and under the other setting of `mul_carry`. -/
def edgeUncommitted (r3 r4 : Word) : State :=
  { edge r3 r4 with cfg := { resetConfig with rangeCommits := false, mulCarry := .draw } }

theorem witness_AdditionTakesRange_immediate :
    additionOf (edgeUncommitted 0x80000000 0) (.addi 5 3 0xFFFF) = some (5, 0x80000000#32, 0xFFFFFFFF#32, false) ∧
    (edgeUncommitted 0x80000000 0).flag .OVE = true ∧ (edgeUncommitted 0x80000000 0).cfg.rangeCommits = false ∧
    ¬FitsSigned ((0x80000000#32).toInt + (0xFFFFFFFF#32).toInt + carryIn false) := by decide

theorem witness_MultiplicationTakesRange_immediate :
    multiplicationOf (edgeUncommitted 0x40000000 0) (.muli 5 3 2) = some (5, 0x40000000#32, 2#32) ∧
    (edgeUncommitted 0x40000000 0).flag .OVE = true ∧ (edgeUncommitted 0x40000000 0).cfg.rangeCommits = false ∧
    (edgeUncommitted 0x40000000 0).cfg.mulCarry = .draw ∧
    ¬FitsSigned ((0x40000000#32).toInt * (2#32).toInt) := by decide

theorem witness_DivisionByZeroTakesRange_uncommitted :
    divisionOf (edgeUncommitted 5 0) (.divu 5 3 4) = some (5, 0#32) ∧ (edgeUncommitted 5 0).flag .OVE = true ∧
    (edgeUncommitted 5 0).cfg.rangeCommits = false := by decide

theorem witness_DivisionByZeroTakesRange : divisionOf (edge 5 0) (.div 5 3 4) = some (5, 0#32) ∧
    divisionOf (edge 5 0) (.divu 5 3 4) = some (5, 0#32) ∧ (edge 5 0).flag .OVE = true := by decide

theorem witness_DivCompletes : (edge 0x80000000 1).readGpr 3 = 0x80000000#32 ∧ (edge 0x80000000 1).readGpr 4 = 1#32 ∧
    CanGoOn (edge 0x80000000 1) ∧ (1#32 ≠ 0#32) ∧ ¬(0x80000000#32 = 0x80000000#32 ∧ 1#32 = 0xFFFFFFFF#32) :=
  ⟨by decide, by decide, canGoOn_edge _ _, by decide, by decide⟩

theorem witness_DivuCompletes : adding.readGpr 3 = 1#32 ∧ adding.readGpr 4 = 2#32 ∧ CanGoOn adding ∧ 2#32 ≠ 0#32 :=
  ⟨by decide, by decide, canGoOn_adding, by decide⟩

theorem witness_OpenQuotientCompletes :
    (divisionOf lastInSlot (.div 5 3 0) = some (5, 0#32) ∧ CanGoOn lastInSlot ∧ lastInSlot.flag .OVE = false) ∧
    ((edge 0x80000000 0xFFFFFFFF).readGpr 3 = 0x80000000#32 ∧ (edge 0x80000000 0xFFFFFFFF).readGpr 4 = 0xFFFFFFFF#32 ∧
      CanGoOn (edge 0x80000000 0xFFFFFFFF)) :=
  ⟨⟨by decide, canGoOn_lastInSlot, by decide⟩, by decide, by decide, canGoOn_edge _ _⟩

theorem witness_BitSearchesComplete : lastInSlot.readGpr 3 = 1#32 ∧ CanGoOn lastInSlot := ⟨by decide, canGoOn_lastInSlot⟩

/-- The last word at which a jump has a delay slot. -/
def jumping (r4 : Word) : State := { machineWith [(4, r4)] with pc := 0xFFFFFFF8#32 }

theorem witness_JrCompletes : (jumping 0x3000).readGpr 4 = 0x3000#32 ∧ (jumping 0x3000).ds = none ∧
    (jumping 0x3000).pc.toNat + 4 < 0x100000000 ∧ (0x3000#32).extractLsb' 0 2 = 0#2 := by decide

theorem witness_JalrCompletes : (4#5 ≠ 9#5) ∧ (jumping 0x3000).readGpr 4 = 0x3000#32 ∧ (jumping 0x3000).ds = none ∧
    (jumping 0x3000).pc.toNat + 4 < 0x100000000 ∧ (0x3000#32).extractLsb' 0 2 = 0#2 := by decide

theorem witness_MisalignedJumpTakesAlign : (jumping 0x3001).readGpr 4 = 0x3001#32 ∧ (jumping 0x3001).ds = none ∧
    (0x3001#32).extractLsb' 0 2 ≠ 0#2 ∧ (4#5 ≠ 9#5) ∧ (jumping 0x3001).cfg.alignEear = .target := by decide

theorem witness_MisalignedJumpTakesAlign_draw :
    let s := { jumping 0x3002 with cfg := { resetConfig with alignEear := .draw } }
    s.readGpr 4 = 0x3002#32 ∧ s.ds = none ∧ (0x3002#32).extractLsb' 0 2 ≠ 0#2 ∧ s.cfg.alignEear = .draw := by decide

theorem witness_JalrOfLinkTakesIllegal : (jumping 0x3000).ds = none := by decide

theorem witness_DelaySlotRunsBeforeTarget : (jumping 0x3000).readGpr 4 = 0x3000#32 ∧ (4#5 ≠ 9#5) ∧
    (jumping 0x3000).ds = none ∧ (jumping 0x3000).pc.toNat + 4 < 0x100000000 ∧
    (0x3000#32).extractLsb' 0 2 = 0#2 ∧ isNext (exec (.jalr 4) (jumping 0x3000)) = true ∧
    (∃ u, exec (.ori 5 9 0) inSlot = .next u) :=
  ⟨by decide, by decide, by decide, by decide, by decide, by decide, next_of_isNext (by decide)⟩

/-- In the delay slot of that jump an overflowing `l.add` takes Range, the jump's address in EPCR0 (V-JAL7). -/
theorem witness_DelaySlotRunsBeforeTarget_exception :
    seen (fun t => (t.pc, t.ds)) (exec (.jalr 3) { edge 0x3000 0x7FFFFFFF with pc := 0x2000#32 }) =
      some (0x00002004, some 0x00003000) ∧
    seen (fun t => (t.epcr0, t.flag .DSX, t.ds, t.pc))
      (exec (.add 5 3 4) { edge 0x3000 0x7FFFFFFF with pc := 0x2004#32, ds := some 0x3000#32 }) =
      some (0x00002000, true, none, 0x00000B00) := by decide

theorem witness_MaciCompletes : lastInSlot.readGpr 3 = 1#32 ∧ lastInSlot.cfg.macPresent = true ∧ CanGoOn lastInSlot :=
  ⟨by decide, by decide, canGoOn_lastInSlot⟩

theorem witness_MulCompletes : (edge 0xB504 0xB504).readGpr 3 = 0xB504#32 ∧ (edge 0xB504 0xB504).readGpr 4 = 0xB504#32 ∧
    CanGoOn (edge 0xB504 0xB504) ∧ FitsSigned ((0xB504#32).toInt * (0xB504#32).toInt) ∧
    (edge 0xB504 0xB504).cfg.mulCarry = .ucarry :=
  ⟨by decide, by decide, canGoOn_edge _ _, by decide, by decide⟩

theorem witness_MuliCompletes : (edge 0x10000 0).readGpr 3 = 0x10000#32 ∧ (0x8000#16).signExtend 32 = 0xFFFF8000#32 ∧
    CanGoOn (edge 0x10000 0) ∧ FitsSigned ((0x10000#32).toInt * (0x8000#16).toInt) :=
  ⟨by decide, by decide, canGoOn_edge _ _, by decide⟩

theorem witness_MuluCompletes : (edge 0xFFFFFFFF 2).readGpr 3 = 0xFFFFFFFF#32 ∧ (edge 0xFFFFFFFF 2).readGpr 4 = 2#32 ∧
    CanGoOn (edge 0xFFFFFFFF 2) := ⟨by decide, by decide, canGoOn_edge _ _⟩

theorem witness_XoriCompletes : lastInSlot.readGpr 3 = 1#32 ∧ CanGoOn lastInSlot ∧ lastInSlot.cfg.xoriExt = .sign ∧
    { lastInSlot with cfg := { resetConfig with xoriExt := .zero } : State }.cfg.xoriExt = .zero ∧
    CanGoOn { lastInSlot with cfg := { resetConfig with xoriExt := .zero } } :=
  ⟨by decide, canGoOn_lastInSlot, by decide, by decide, .inl (by decide)⟩

theorem witness_LfMaddSCompletes :
    Config.fpMadd32 (adding.readGpr 3) (adding.readGpr 4) (adding.readGpr 5) (adding.fpcsr.extractLsb' 1 2) =
      ((Config.fpMadd32 (adding.readGpr 3) (adding.readGpr 4) (adding.readGpr 5) (adding.fpcsr.extractLsb' 1 2)).1,
        (Config.fpMadd32 (adding.readGpr 3) (adding.readGpr 4) (adding.readGpr 5) (adding.fpcsr.extractLsb' 1 2)).2) ∧
    adding.cfg.fpuPresent = true ∧ CanGoOn adding ∧ adding.fpcsr.getLsbD 0 = false :=
  ⟨rfl, by decide, canGoOn_adding, by decide⟩

/-- FPCSR.FPEE set. -/
def fpEnabled : State := { machineWith [] with fpcsr := 1#32 }

/-- Which of the two clauses holds is the open function's; the operands meet every hypothesis in either case. -/
theorem witness_FloatingPointExceptionOnFlag :
    (∃ v flags, Config.fpMadd32 (fpEnabled.readGpr 3) (fpEnabled.readGpr 4) (fpEnabled.readGpr 5)
        (fpEnabled.fpcsr.extractLsb' 1 2) = (v, flags) ∧ (flags ≠ 0#9 ∨ flags = 0#9)) ∧
    fpEnabled.cfg.fpuPresent = true ∧ fpEnabled.fpcsr.getLsbD 0 = true ∧ CanGoOn fpEnabled :=
  ⟨⟨_, _, rfl, (em _).symm⟩, by decide, by decide, .inr (show (0x2000#32).toNat + 4 < 0x100000000 by decide)⟩

/-- Every held register has its number, reached through rA OR K. -/
theorem witness_MfsprCompletes : ∀ r ∈ [Spr.sr, .fpcsr, .epcr0, .eear0, .esr0, .maclo, .machi, .picmr, .picsr],
    (machineWith [(3, sprNumberOf r)]).readGpr 3 ||| (0#16).setWidth 32 = sprNumberOf r ∧
    (machineWith [(3, sprNumberOf r)]).cfg.companionSet = true ∧ (machineWith [(3, sprNumberOf r)]).flag .SM = true ∧
    sprPresent (machineWith [(3, sprNumberOf r)]).cfg r = true ∧
    (machineWith [(3, sprNumberOf r)]).pc.toNat + 4 < 0x100000000 := by decide

/-- The value 0x8005 may be written to every held register. -/
theorem witness_MtsprCompletes : ∀ r ∈ [Spr.sr, .fpcsr, .epcr0, .eear0, .esr0, .maclo, .machi, .picmr, .picsr],
    (machineWith [(3, sprNumberOf r), (4, 0x8005)]).readGpr 3 ||| (0#16).setWidth 32 = sprNumberOf r ∧
    (machineWith [(3, sprNumberOf r), (4, 0x8005)]).readGpr 4 = 0x8005#32 ∧
    (machineWith [(3, sprNumberOf r), (4, 0x8005)]).cfg.companionSet = true ∧
    (machineWith [(3, sprNumberOf r), (4, 0x8005)]).flag .SM = true ∧
    sprPresent (machineWith [(3, sprNumberOf r), (4, 0x8005)]).cfg r = true ∧
    (∀ n ∈ mustStayZeroBits, (0x8005#32).getLsbD n = false) ∧
    (machineWith [(3, sprNumberOf r), (4, 0x8005)]).cfg.picsrWriteOne = .set ∧
    (machineWith [(3, sprNumberOf r), (4, 0x8005)]).pc.toNat + 4 < 0x100000000 := by decide

theorem witness_LogicalImmediatesComplete : lastInSlot.readGpr 3 = 1#32 ∧ lastInSlot.cfg.companionSet = true ∧
    CanGoOn lastInSlot := ⟨by decide, by decide, canGoOn_lastInSlot⟩

theorem witness_RfeCompletes : leavingByRfe.cfg.companionSet = true ∧ leavingByRfe.flag .SM = true ∧
    leavingByRfe.ds = none ∧ (∀ n ∈ mustStayZeroBits, leavingByRfe.esr0.getLsbD n = false) ∧
    leavingByRfe.epcr0.extractLsb' 0 2 = 0#2 := by decide

theorem witness_TransferInDelaySlotRefused : inSlot.ds ≠ none := by decide

theorem witness_PrivilegedRefusedInUserMode : userRange.flag .SM = false ∧ userRange.cfg.companionSet = true := by decide

/-- UPR by its number; SR with DME set; ESR0 with DME set. -/
theorem witness_SprAccessRefused :
    (machineWith []).cfg.companionSet = true ∧ (machineWith []).flag .SM = true ∧
    (∀ r : Spr, (machineWith []).readGpr 0 ||| (1#16).setWidth 32 ≠ sprNumberOf r) ∧
    ((machineWith [(3, 0x21)]).readGpr 0 ||| (0x11#16).setWidth 32 = 0x0011#32 ∧
      ¬SrWritable ((machineWith [(3, 0x21)]).readGpr 3)) ∧
    ({ machineWith [] with esr0 := 0x21#32 : State }.ds = none ∧
      ¬SrWritable { machineWith [] with esr0 := 0x21#32 : State }.esr0) :=
  ⟨by decide, by decide, fun r => by cases r <;> decide, ⟨by decide, by unfold SrWritable; decide⟩, by decide,
    by unfold SrWritable; decide⟩

/-- A 1 to a clear bit of PICSR under the spec's default; a return to a misaligned address. -/
theorem witness_SprAccessRefused_values :
    (let s := { machineWith [(3, 4)] with cfg := defaultConfig }
     s.cfg.companionSet = true ∧ s.flag .SM = true ∧ s.readGpr 0 ||| (0x4802#16).setWidth 32 = 0x4802#32 ∧
     s.cfg.picPresent = true ∧ s.cfg.picsrWriteOne = .refuse ∧ (s.readGpr 3).getLsbD 2 = true ∧
     s.picsr.getLsbD 2 = false) ∧
    (let s := { machineWith [] with epcr0 := 0x2002#32 }
     s.ds = none ∧ (∀ n ∈ mustStayZeroBits, s.esr0.getLsbD n = false) ∧ s.epcr0.extractLsb' 0 2 ≠ 0#2) := by decide

theorem witness_AbsentUnitRefused :
    ∃ cfg : Config, cfg.macPresent = false ∧ cfg.fpuPresent = false ∧ cfg.companionSet = false :=
  ⟨{ resetConfig with macPresent := false, fpuPresent := false, companionSet := false }, rfl, rfl, rfl⟩

/-- At the last word: `l.rfe`, and a jump that takes ALIGN. -/
def atLastWord : State := { machineWith [(4, 0x3001)] with pc := 0xFFFFFFFC#32 }

theorem witness_NoStepPastLastWord : atLastWord.pc = 0xFFFFFFFC#32 ∧ atLastWord.ds = none ∧
    (∃ t, exec .rfe atLastWord = .next t) ∧ ∃ t, exec (.jr 4) atLastWord = .next t :=
  ⟨by decide, by decide, next_of_isNext (by decide), next_of_isNext (by decide)⟩

end Sys2Proof.Tests
end

section
/-! SUPPORT AND PROOFS. The family of 10_state.md: fixed bits of a register, the invariant kept by every step, the accesses
that are refused, the last word, the decoded instruction, and reset. -/

namespace Sys2Proof.Machine

open Sys2Proof.Safety

/-! ### Bits under a mask -/

/-- The bits that a mask selects are those of a constant. -/
theorem and_eq_iff_getLsbD {w m c : Word} (hc : c &&& m = c) :
    w &&& m = c ↔ ∀ n, m.getLsbD n = true → w.getLsbD n = c.getLsbD n := by
  constructor
  · intro h n hn
    rw [← h]
    simp [hn]
  · intro h
    refine BitVec.eq_of_getLsbD_eq fun n _ => ?_
    rw [BitVec.getLsbD_and]
    cases hm : m.getLsbD n
    · rw [← hc]
      simp [hm]
    · simp [h n hm]

theorem and_ne_zero_of_getLsbD {w m : Word} {n : Nat} (hw : w.getLsbD n = true) (hm : m.getLsbD n = true) :
    w &&& m ≠ 0#32 := by
  intro h
  have hn : (w &&& m).getLsbD n = true := by simp [hw, hm]
  rw [h] at hn
  simp at hn

/-- The bits of SR that the invariant fixes: 1, 5 to 8, and 15 upward, of which only FO, bit 15, is 1 (10 R28). -/
theorem srLegal_iff (sr : Word) :
    SrLegal sr ↔ ∀ n, n < 32 → (n = 1 ∨ 5 ≤ n ∧ n ≤ 8 ∨ 15 ≤ n) → sr.getLsbD n = decide (n = 15) := by
  have hmask : ∀ n, n < 32 → (0xFFFF81E2#32).getLsbD n = decide (n = 1 ∨ 5 ≤ n ∧ n ≤ 8 ∨ 15 ≤ n) := by decide
  have hval : ∀ n, n < 32 → (0x00008000#32).getLsbD n = decide (n = 15) := by decide
  rw [SrLegal, and_eq_iff_getLsbD (by decide)]
  constructor
  · intro h n hn hf
    rw [← hval n hn]
    exact h n (by simpa [hmask n hn] using hf)
  · intro h n hm
    have hn : n < 32 := BitVec.lt_of_getLsbD hm
    rw [hval n hn]
    exact h n hn (by simpa [hmask n hn] using hm)

/-- The "must stay 0" bits listed (10 R28) are those of the mask. -/
theorem srWritable_iff (v : Word) : SrWritable v ↔ v &&& srMustStayZero = 0#32 := by
  have hmask : ∀ n, n < 32 → (srMustStayZero.getLsbD n = true ↔ n ∈ mustStayZeroBits) := by decide
  have hlt : ∀ n ∈ mustStayZeroBits, n < 32 := by decide
  rw [and_eq_iff_getLsbD (by decide), SrWritable]
  simp only [BitVec.getLsbD_zero]
  exact ⟨fun h n hm => h n ((hmask n (BitVec.lt_of_getLsbD hm)).mp hm),
    fun h n hn => h n ((hmask n (hlt n hn)).mpr hn)⟩

/-- One bit of what a write leaves in SR (45 R206). -/
theorem getLsbD_srWritten (v : Word) {n : Nat} (hn : n < 32) :
    (srWritten v).getLsbD n = if n < 15 then v.getLsbD n else decide (n = 15) := by
  interval_cases n <;> simp [srWritten]

theorem srLegal_srWritten {v : Word} (h : v &&& srMustStayZero = 0#32) : SrLegal (srWritten v) := by
  rw [← srWritable_iff] at h
  rw [srLegal_iff]
  intro n hn hf
  rw [getLsbD_srWritten v hn]
  split
  · have hz : n ∈ mustStayZeroBits := by simp only [mustStayZeroBits, List.mem_cons]; omega
    rw [h n hz, eq_comm, decide_eq_false_iff_not]
    omega
  · rfl

/-- Trap entry leaves FO and every bit that it does not clear or that is not a field of its own (60 R224). -/
theorem srLegal_srAtEntry {sr : Word} (cfg : Config) (slot : Bool) (h : SrLegal sr) :
    SrLegal (srAtEntry cfg slot sr) := by
  rw [srLegal_iff] at h ⊢
  intro n hn hf
  obtain ⟨hdsx, hove, hsm⟩ : ¬n = 13 ∧ ¬n = 12 ∧ ¬n = 0 := by omega
  rw [getLsbD_srAtEntry, if_neg hdsx, if_neg hove, if_neg hsm]
  split
  · rw [eq_comm, decide_eq_false_iff_not]
    omega
  · exact h n hn hf

/-- CY and OV, bits 10 and 11, are none of the bits that the invariant fixes. -/
theorem srLegal_of_keeps_but_flags {sr sr' : Word} (h : SrLegal sr)
    (hk : ∀ n, n ≠ 10 → n ≠ 11 → sr'.getLsbD n = sr.getLsbD n) : SrLegal sr' := by
  rw [srLegal_iff] at h ⊢
  intro n hn hf
  rw [hk n (by omega) (by omega)]
  exact h n hn hf

/-- The flags of `lf.madd.s`, bits 11:3, are no reserved bits of FPCSR (10 R32). -/
theorem fpcsrWithFlags_reserved {w : Word} (flags : FpFlags) (h : w &&& 0xFFFFF000#32 = 0#32) :
    fpcsrWithFlags w flags &&& 0xFFFFF000#32 = 0#32 := by
  have hflags : (flags.setWidth 32 <<< 3) &&& 0xFFFFF000#32 = 0#32 := by
    refine BitVec.eq_of_getLsbD_eq fun n hn => ?_
    interval_cases n <;> simp
  rw [fpcsrWithFlags, BitVec.and_or_distrib_right, h, hflags]
  rfl

theorem picmrWritten_fixed (v : Word) : picmrWritten v &&& 3#32 = 3#32 := by
  rw [picmrWritten, BitVec.and_or_distrib_right, BitVec.and_assoc]
  simp

/-! ### The invariant: what is held, and where control is -/

/-- The invariant of what the machine holds, `pc` and `ds` apart. -/
def HeldInv (s : State) : Prop :=
  ConfigLegal s.cfg ∧ s.mem.wf = true ∧ SrLegal s.sr ∧ s.picmr &&& 3#32 = 3#32 ∧ s.fpcsr &&& 0xFFFFF000#32 = 0#32

/-- `pc` and a pending target are addresses of words (10 R24, R25). -/
def ControlAligned (s : State) : Prop :=
  wordAligned s.pc = true ∧ ∀ target, s.ds = some target → wordAligned target = true

theorem inv_iff (s : State) : Inv s ↔ HeldInv s ∧ ControlAligned s := by
  unfold Safety.Inv HeldInv ControlAligned
  tauto

theorem controlAligned_of_no_jump {s : State} (hpc : wordAligned s.pc = true) (hds : s.ds = none) :
    ControlAligned s := ⟨hpc, by simp [hds]⟩

theorem ControlAligned.nextWord {s : State} (h : ControlAligned s) : wordAligned (s.pc + 4) = true :=
  wordAligned_add_four h.1

/-- Control goes on to an aligned address: a pending target, or the next word (10 R26 step 8). -/
theorem ControlAligned.goesOn {s : State} (h : ControlAligned s) : wordAligned (s.ds.getD (s.pc + 4)) = true := by
  cases hd : s.ds with
  | none => exact h.nextWord
  | some target => exact h.2 target hd

/-- The invariant of what is held does not speak of control. -/
theorem HeldInv.moveControl {s : State} (h : HeldInv s) (pc : Word) (ds : Option Word) :
    HeldInv { s with pc := pc, ds := ds } := h

theorem HeldInv.plainWrites {s u : State} (h : HeldInv s) (hu : PlainWrites s u) : HeldInv u := by
  obtain ⟨hcfg, hmem, hsr, hpicmr, hfpcsr⟩ := h
  obtain ⟨hu, hkeep, flags, hflags⟩ := hu
  have hcfg' : u.cfg = s.cfg := by rw [hu]
  have hmem' : u.mem = s.mem := by rw [hu]
  have hpicmr' : u.picmr = s.picmr := by rw [hu]
  exact ⟨hcfg' ▸ hcfg, hmem' ▸ hmem, srLegal_of_keeps_but_flags hsr hkeep, hpicmr' ▸ hpicmr,
    hflags ▸ fpcsrWithFlags_reserved flags hfpcsr⟩

/-- Trap entry ends at a vector, which is aligned whatever `pc` was (60 R222, R224). -/
theorem HeldInv.takeException {s : State} (h : HeldInv s) (e : Exception) (ea : Option Word) :
    Inv (s.takeException e ea) := by
  obtain ⟨hcfg, hmem, hsr, hpicmr, hfpcsr⟩ := h
  have ⟨hvec, _⟩ := hcfg
  exact (inv_iff _).mpr ⟨⟨hcfg, hmem, srLegal_srAtEntry s.cfg s.inDelaySlot hsr, hpicmr, hfpcsr⟩,
    controlAligned_of_no_jump (hvec s.sr e) rfl⟩

/-- `WriteSPR` keeps the fixed bits of SR, PICMR and FPCSR, and touches nothing else that the invariant speaks of
(45 R206). -/
theorem HeldInv.writeSpr {s u : State} {r : Spr} {v : Word} (h : HeldInv s) (hu : s.writeSpr r v = .ok u) :
    HeldInv u := by
  obtain ⟨hcfg, hmem, hsr, hpicmr, hfpcsr⟩ := h
  obtain ⟨rfl, hzero, -⟩ := writeSpr_ok hu
  cases r with
  | sr => exact ⟨hcfg, hmem, srLegal_srWritten (hzero rfl), hpicmr, hfpcsr⟩
  | fpcsr =>
    have hlow : (v &&& 0x00000FFF#32) &&& 0xFFFFF000#32 = 0#32 := by rw [BitVec.and_assoc]; simp
    exact ⟨hcfg, hmem, hsr, hpicmr, hlow⟩
  | picmr => exact ⟨hcfg, hmem, hsr, picmrWritten_fixed v, hfpcsr⟩
  | epcr0 | eear0 | esr0 | maclo | machi | picsr => exact ⟨hcfg, hmem, hsr, hpicmr, hfpcsr⟩

/-- Executing an instruction keeps the invariant, in each of the five shapes of a next state. -/
theorem inv_of_execShape {i : Instr} {s t : State} (h : Inv s) (ht : ExecShape i s t) : Inv t := by
  obtain ⟨hheld, hctl⟩ := (inv_iff s).mp h
  rcases ht with ⟨u, hu, -, rfl⟩ | ⟨u, target, hu, -, -, htgt, rfl⟩ | ⟨u, e, ea, hu, rfl⟩ |
    ⟨-, -, -, hesr, hepcr, rfl⟩ | ⟨_, _, _, _, u, -, -, -, hu, -, rfl⟩
  case inl =>
    exact (inv_iff _).mpr ⟨(hheld.plainWrites hu).moveControl _ _, controlAligned_of_no_jump hctl.goesOn rfl⟩
  case inr.inl =>
    refine (inv_iff _).mpr ⟨(hheld.plainWrites hu).moveControl _ _, hctl.nextWord, fun x hx => ?_⟩
    cases hx
    exact htgt
  case inr.inr.inl => exact (hheld.plainWrites hu).takeException e ea
  case inr.inr.inr.inl =>
    obtain ⟨hcfg, hmem, -, hpicmr, hfpcsr⟩ := hheld
    exact (inv_iff _).mpr ⟨⟨hcfg, hmem, srLegal_srWritten hesr, hpicmr, hfpcsr⟩,
      controlAligned_of_no_jump (beq_iff_eq.mpr hepcr) rfl⟩
  case inr.inr.inr.inr =>
    exact (inv_iff _).mpr ⟨(hheld.writeSpr hu).moveControl _ _, controlAligned_of_no_jump hctl.goesOn rfl⟩

theorem inv_sample {s : State} (h : Inv s) : Inv s.sample := h

/-- Settles O18: after the sampling, which touches nothing that the invariant speaks of, a step enters the Interrupt
exception or executes an instruction. -/
theorem stepKeepsInvariant : Obligations.StepKeepsInvariant := by
  intro s t h ht
  rcases step_next ht with ⟨-, rfl⟩ | ⟨-, -, w, i, -, -, hexec⟩
  · obtain ⟨hheld, -⟩ := (inv_iff _).mp (inv_sample h)
    exact hheld.takeException .interrupt none
  · exact inv_of_execShape (inv_sample h) (exec_next hexec)

/-! ### The accesses to special-purpose registers that are refused -/

theorem sprOfNumber_eq_some {n : Word} {r : Spr} (h : sprOfNumber n = some r) : n = sprNumberOf r := by
  unfold sprOfNumber at h
  split_ifs at h <;> cases h <;> assumption

theorem sprOfNumber_sprNumberOf (r : Spr) : sprOfNumber (sprNumberOf r) = some r := by
  cases r <;> rfl

/-- The number of a register that is held addresses it (10 R37). -/
theorem sprAt_sprNumberOf {s : State} {r : Spr} (h : sprPresent s.cfg r = true) : s.sprAt (sprNumberOf r) = .ok r :=
  (sprAt_ok_iff s _ r).mpr ⟨by cases r <;> decide, sprOfNumber_sprNumberOf r, h⟩

/-- A number that no held register has addresses none (10 R37). -/
theorem sprAt_error {s : State} {n : Word} (h : ∀ r, sprPresent s.cfg r = true → n ≠ sprNumberOf r) :
    ∃ e, s.sprAt n = .error e := by
  cases hat : s.sprAt n with
  | error e => exact ⟨e, rfl⟩
  | ok r =>
    obtain ⟨-, hnum, hheld⟩ := (sprAt_ok_iff s n r).mp hat
    exact absurd (sprOfNumber_eq_some hnum) (h r hheld)

theorem writeSpr_sr_refused {s : State} {v : Word} (h : v &&& srMustStayZero ≠ 0#32) :
    s.writeSpr .sr v = .error (.srBitMustStayZero v) := by
  rw [State.writeSpr, if_pos ⟨rfl, h⟩]

theorem writeSpr_picsr_refused {s : State} {v : Word} (hp : s.cfg.picsrWriteOne = .refuse)
    (h : v &&& ~~~s.picsr ≠ 0#32) : s.writeSpr .picsr v = .error (.picsrOneToClearBit v) := by
  rw [State.writeSpr, if_neg (by simp), if_pos ⟨rfl, hp, h⟩]

/-! What the privileged instructions of 45 do where `companion_set` admits them and the mode is supervisor. -/

section privileged

variable {s : State} (hc : s.cfg.companionSet = true) (hsm : s.flag .SM = true)

include hc hsm

theorem exec_mfspr_supervisor (d a : RegNum) (imm : Imm16) :
    exec (.mfspr d a imm) s =
      orRefuse (s.sprAt (s.readGpr a ||| imm.setWidth 32)) fun r => (s.writeGpr d (s.readSpr r)).advance := by
  simp only [exec, execMfspr, State.ifCompanion, State.ifSupervisor, hc, hsm, if_true]
  rfl

theorem exec_mtspr_supervisor (a b : RegNum) (imm : Imm16) :
    exec (.mtspr a b imm) s =
      orRefuse (s.sprAt (s.readGpr a ||| imm.setWidth 32)) fun r =>
        orRefuse (s.writeSpr r (s.readGpr b)) State.advance := by
  simp only [exec, execMtspr, State.ifCompanion, State.ifSupervisor, hc, hsm, if_true]
  rfl

/-- `l.mtspr` to a held register is refused where the write is. -/
theorem exec_mtspr_refused {a b : RegNum} {imm : Imm16} {r : Spr} {e : Refusal}
    (hn : s.readGpr a ||| imm.setWidth 32 = sprNumberOf r) (hheld : sprPresent s.cfg r = true)
    (hw : s.writeSpr r (s.readGpr b) = .error e) : exec (.mtspr a b imm) s = .refused e := by
  rw [exec_mtspr_supervisor hc hsm, hn, sprAt_sprNumberOf hheld]
  simp only [orRefuse, hw]

theorem exec_rfe_supervisor (hds : s.ds = none) : exec .rfe s = s.returnFromException := by
  simp [exec, execRfe, State.ifCompanion, State.ifSupervisor, State.outsideDelaySlot, State.inDelaySlot, hc, hsm, hds]

end privileged

/-- Settles O58: each clause is the refusal of the number, of the written value, or of the return. -/
theorem sprAccessRefused : Obligations.SprAccessRefused := by
  intro s hc hsm
  refine ⟨fun d a imm hnone => ?_, fun a b imm hn hv => ?_, fun a b imm n hn hpic hone hlt hb hclear => ?_,
    fun hds hesr => ?_, fun hds hesr hepcr => ?_⟩
  · obtain ⟨e, he⟩ := sprAt_error hnone
    refine ⟨⟨e, ?_⟩, fun b => ⟨e, ?_⟩⟩
    · rw [exec_mfspr_supervisor hc hsm, he]; rfl
    · rw [exec_mtspr_supervisor hc hsm, he]; rfl
  · rw [srWritable_iff] at hv
    exact exec_mtspr_refused hc hsm (r := .sr) hn rfl (writeSpr_sr_refused hv)
  · have hval : s.readGpr b &&& ~~~s.picsr ≠ 0#32 :=
      and_ne_zero_of_getLsbD hb (by rw [BitVec.getLsbD_not, hclear]; simp [hlt])
    exact exec_mtspr_refused hc hsm (r := .picsr) hn hpic (writeSpr_picsr_refused hone hval)
  · rw [srWritable_iff] at hesr
    rw [exec_rfe_supervisor hc hsm hds, State.returnFromException, if_pos hesr]
  · rw [srWritable_iff] at hesr
    have hmis : s.epcr0 &&& 3#32 ≠ 0#32 := fun h =>
      hepcr ((wordAligned_iff_extract s.epcr0).mp (beq_iff_eq.mpr h))
    rw [exec_rfe_supervisor hc hsm hds, State.returnFromException, if_neg (not_not.mpr hesr), if_pos hmis]

/-! ### The last word of the address space -/

theorem nextPcWraps_of_last_word {s : State} (hpc : s.pc = 0xFFFFFFFC#32) : s.nextPcWraps = true := by
  rw [State.nextPcWraps, hpc]
  decide

theorem not_canGoOn_of_last_word {s : State} (hpc : s.pc = 0xFFFFFFFC#32) (hds : s.ds = none) : ¬CanGoOn s := by
  rw [canGoOn_iff, nextPcWraps_of_last_word hpc]
  simp [hds]

/-- Settles O60: of the five shapes of a next state, three need `pc + 4` to be an address. -/
theorem noStepPastLastWord : Obligations.NoStepPastLastWord := by
  intro i s t hpc hds ht
  have hgo : ¬CanGoOn s := not_canGoOn_of_last_word hpc hds
  rcases exec_next ht with ⟨-, -, h, -⟩ | ⟨-, -, -, -, h, -⟩ | ⟨u, e, ea, hu, rfl⟩ | ⟨hrfe, -⟩ |
    ⟨-, -, -, -, -, -, -, -, -, h, -⟩
  · exact absurd h hgo
  · rw [nextPcWraps_of_last_word hpc] at h
    cases h
  · exact .inr ⟨e, u.sr, _, hu.entered e ea⟩
  · exact .inl hrfe
  · exact absurd h hgo

/-! ### The instruction that a step executes -/

theorem gprsImplemented_iff (cfg : Config) (i : Instr) :
    gprsImplemented cfg i = true ↔ ∀ r ∈ i.registers, r.toNat < cfg.numGprs := by
  simp [gprsImplemented]

theorem decodeWord_of_decode {s : State} {w : Word} {i : Instr} (h : decode s.cfg.reservedBits w = .ok i) :
    s.decodeWord w = if gprsImplemented s.cfg i then .ok i else .error (.gprNotImplemented w) := by
  rw [State.decodeWord, h]

theorem atHalt_eq_false_iff (s : State) : s.atHalt = false ↔ s.cfg.haltAddr ≠ some s.pc := by
  simp [State.atHalt]

/-- A step that takes no interrupt and is not at `halt_addr` is refused where the word it fetched is. -/
theorem step_of_decodeWord_error {s : State} {w : Word} {e : Refusal} (hi : s.sample.interruptTaken = false)
    (hh : s.sample.atHalt = false) (hw : s.sample.fetch = .ok w) (hd : s.sample.decodeWord w = .error e) :
    step s = .refused e := by
  simp [step, hi, hh, hw, hd]

/-- Settles O7: the word that was fetched decodes to the instruction exactly where `NGPR` admits its registers. -/
theorem stepRunsDecodedInstruction : Obligations.StepRunsDecodedInstruction := by
  intro s w i hi hhalt hw hdec
  have hh : s.sample.atHalt = false := (atHalt_eq_false_iff s.sample).mpr hhalt
  have hd := decodeWord_of_decode (s := s.sample) hdec
  refine ⟨fun hall => ?_, fun ⟨r, hr, hle⟩ => ?_, fun h32 r _ => ?_⟩
  · rw [if_pos ((gprsImplemented_iff s.sample.cfg i).mpr hall)] at hd
    exact step_of_decoded hi hh hw hd
  · have hnot : ¬gprsImplemented s.sample.cfg i = true := fun himp =>
      absurd ((gprsImplemented_iff _ i).mp himp r hr) (Nat.not_lt.mpr hle)
    rw [if_neg hnot] at hd
    exact step_of_decodeWord_error hi hh hw hd
  · rw [h32]
    exact r.isLt

/-! ### Reset -/

/-- Settles O15, from the definition of the reset state. -/
theorem resetLeavesSpecValues : Obligations.ResetLeavesSpecValues :=
  ⟨fun _ => ⟨rfl, rfl, rfl, rfl, rfl⟩, rfl, rfl⟩

theorem readGpr_resetWith (cfg : Config) (r : RegNum) : (State.resetWith cfg).readGpr r = 0#32 := by
  have hgpr : (State.resetWith cfg).gpr[r.toNat]'r.isLt = 0#32 := by simp [State.resetWith]
  rw [State.readGpr, hgpr, ite_self]

/-- Settles O16, from the definition of the reset state and, for r0 to r31, of a register read. -/
theorem resetRegistersReadZeroByChoice : Obligations.ResetRegistersReadZeroByChoice :=
  fun cfg => ⟨readGpr_resetWith cfg, rfl, rfl, rfl, rfl, rfl, rfl⟩

theorem wordAligned_add {a b : Word} (ha : wordAligned a = true) (hb : wordAligned b = true) :
    wordAligned (a + b) = true := by
  rw [wordAligned_iff_toNat] at ha hb ⊢
  rw [BitVec.toNat_add]
  omega

/-- Where the two bases and the offsets are aligned, so is every vector (60 R222). -/
theorem wordAligned_vectorAddress {cfg : Config} (hlow : wordAligned cfg.vectorBaseLow = true)
    (hhigh : wordAligned cfg.vectorBaseHigh = true) (hoff : ∀ e, wordAligned (vectorOffset cfg e) = true)
    (sr : Word) (e : Exception) : wordAligned (vectorAddress cfg sr e) = true := by
  refine wordAligned_add ?_ (hoff e)
  split
  · exact hhigh
  · exact hlow

theorem configLegal_resetConfig : ConfigLegal resetConfig :=
  ⟨wordAligned_vectorAddress (by decide) (by decide) (fun e => by cases e <;> decide), by decide, by decide⟩

theorem inv_resetWith {cfg : Config} (h : ConfigLegal cfg) : Inv (State.resetWith cfg) := by
  have ⟨_, hpc, hsr⟩ := h
  exact (inv_iff _).mpr ⟨⟨h, rfl, hsr, BitVec.and_self, BitVec.zero_and⟩, controlAligned_of_no_jump hpc rfl⟩

/-- Settles O17: the setting of reset is a legal one. -/
theorem resetMeetsInvariant : Obligations.ResetMeetsInvariant :=
  ⟨inv_resetWith configLegal_resetConfig, fun _ => inv_resetWith⟩

end Sys2Proof.Machine
end

section
/-! SUPPORT AND PROOFS. The family of 20_memory.md: the bytes that a fetch reads, the fetch that is stuck, the word placed
at `pc`, and memory and parameters through a step. -/

namespace Sys2Proof.Machine

open Sys2Proof.Safety

/-! ### The bytes that a fetch reads -/

/-- Reading several bytes gives those that memory holds, one after the other. -/
theorem readBytes_of_getElem? {m : Memory} {a : Nat} {bs : List Byte}
    (h : ∀ k < bs.length, m.readByte (a + k) = bs[k]?) : m.readBytes a bs.length = some bs := by
  induction bs generalizing a with
  | nil => rfl
  | cons b bs ih =>
    have hhead : m.readByte a = some b := h 0 (Nat.zero_lt_succ _)
    have htail : m.readBytes (a + 1) bs.length = some bs := ih fun k hk => by
      rw [Nat.add_assoc, Nat.add_comm 1 k, h (k + 1) (Nat.succ_lt_succ hk), List.getElem?_cons_succ]
    rw [List.length_cons, Memory.readBytes, hhead, htail]

/-- Settles O11: the four bytes are read in the order of their addresses and joined in the machine's byte order. -/
theorem fetchReadsFourBytes : Obligations.FetchReadsFourBytes := by
  intro s b0 b1 b2 b3 ha h0 h1 h2 h3
  have hbytes : s.mem.readBytes s.pc.toNat 4 = some [b0, b1, b2, b3] :=
    readBytes_of_getElem? (bs := [b0, b1, b2, b3]) fun k (hk : k < 4) => by
      interval_cases k
      exacts [h0, h1, h2, h3]
  rw [fetch_of_readBytes ha hbytes, joinBytes_four]

/-! ### The fetch that is stuck -/

/-- A step that takes no interrupt and is not at `halt_addr` stops where its fetch does. -/
theorem step_of_fetch_error {s : State} {f : Fault} (hi : s.sample.interruptTaken = false)
    (hh : s.sample.atHalt = false) (hf : s.sample.fetch = .error f) : step s = .fault f := by
  simp [step, hi, hh, hf]

/-- Settles O12: the sampling moves neither `pc` nor memory, so the step's fetch is the one that is stuck. -/
theorem fetchFromNothingIsStuck : Obligations.FetchFromNothingIsStuck := by
  intro s k ha hk hnone hi hhalt
  have hbytes : s.sample.mem.readBytes s.sample.pc.toNat 4 = none :=
    (readBytes_none_iff _ _ _).mpr ⟨k, hk, hnone⟩
  have hfetch : s.sample.fetch = .error (.fetchUnmapped s.pc) := fetch_of_readBytes_none ha hbytes
  exact step_of_fetch_error hi ((atHalt_eq_false_iff s.sample).mpr hhalt) hfetch

/-! ### The word placed at `pc` -/

/-- The bytes of a store read back. -/
theorem readBytes_writeBytes_self (m : Memory) (a : Nat) (bs : List Byte) :
    (m.writeBytes a bs).readBytes a bs.length = some bs :=
  readBytes_of_getElem? fun k hk => by
    rw [Memory.readByte_writeBytes, if_pos ⟨Nat.le_add_right a k, Nat.add_lt_add_left hk a⟩, Nat.add_sub_cancel_left]

/-- A store leaves every byte outside it as it was. -/
theorem readByte_writeBytes_outside {m : Memory} {a b : Nat} {bs : List Byte} (h : b < a ∨ a + bs.length ≤ b) :
    (m.writeBytes a bs).readByte b = m.readByte b := by
  rw [Memory.readByte_writeBytes, if_neg (by omega)]

/-- Every number of 32 bits is a word, which is placed as it is. -/
theorem withFetchWord_toNat (s : State) (w : Word) : s.withFetchWord 32 w.toNat = s.placeWord w.toNat := by
  rw [State.withFetchWord, Nat.mod_eq_of_lt w.isLt]

/-- The word placed at an aligned `pc` is the word fetched there, in either byte order (20 R62, R63). -/
theorem fetch_placeWord {s : State} (ha : wordAligned s.pc = true) (w : Word) :
    (s.placeWord w.toNat).fetch = .ok w := by
  have hbytes : (s.placeWord w.toNat).mem.readBytes s.pc.toNat 4 = some (splitBytes s.cfg.bigEndian 4 w.toNat) := by
    simpa using readBytes_writeBytes_self s.mem s.pc.toNat (splitBytes s.cfg.bigEndian 4 w.toNat)
  rw [fetch_of_readBytes (s := s.placeWord w.toNat) ha hbytes, State.placeWord_cfg, joinBytes_splitBytes _ _ w.isLt, BitVec.ofNat_toNat,
    BitVec.setWidth_eq]

/-- Settles O14: the fetch joins what the placing split, and the placing is a store of four bytes. -/
theorem placedWordIsFetched : Obligations.PlacedWordIsFetched := by
  intro s w ha
  rw [withFetchWord_toNat]
  refine ⟨fetch_placeWord ha w, fun a houtside => ?_, rfl⟩
  exact readByte_writeBytes_outside (by simpa using houtside)

/-! ### Memory and parameters through a step -/

/-- Memory and the parameters are as before (00 R12, 20 R74). -/
def SameMemCfg (s t : State) : Prop := t.mem = s.mem ∧ t.cfg = s.cfg

theorem PlainWrites.sameMemCfg {s u : State} (h : PlainWrites s u) : SameMemCfg s u := by
  obtain ⟨hu, -, -⟩ := h
  rw [hu]
  exact ⟨rfl, rfl⟩

theorem sameMemCfg_of_writeSpr {s u : State} {r : Spr} {v : Word} (h : s.writeSpr r v = .ok u) : SameMemCfg s u := by
  obtain ⟨rfl, -, -⟩ := writeSpr_ok h
  exact ⟨State.setSpr_mem s r _, State.setSpr_cfg s r _⟩

/-- In each of the five shapes of a next state, memory and the parameters are those of the writes made before control
moved. -/
theorem sameMemCfg_of_execShape {i : Instr} {s t : State} (h : ExecShape i s t) : SameMemCfg s t := by
  rcases h with ⟨u, hu, -, rfl⟩ | ⟨u, target, hu, -, -, -, rfl⟩ | ⟨u, e, ea, hu, rfl⟩ | ⟨-, -, -, -, -, rfl⟩ |
    ⟨_, _, _, _, u, -, -, -, hu, -, rfl⟩
  case inl | inr.inl | inr.inr.inl => exact hu.sameMemCfg
  case inr.inr.inr.inl => exact ⟨rfl, rfl⟩
  case inr.inr.inr.inr =>
    have hsame : SameMemCfg s u := sameMemCfg_of_writeSpr hu
    exact hsame

theorem step_sameMemCfg {s t : State} (h : step s = .next t) : SameMemCfg s t := by
  rcases step_next h with ⟨-, rfl⟩ | ⟨-, -, w, i, -, -, hexec⟩
  · exact ⟨rfl, rfl⟩
  · have hsame : SameMemCfg s.sample t := sameMemCfg_of_execShape (exec_next hexec)
    exact hsame

/-- Settles O19: the sampling, trap entry and each shape of an executed instruction leave memory and the parameters. -/
theorem stepKeepsMemoryAndParameters : Obligations.StepKeepsMemoryAndParameters := by
  intro s t h
  obtain ⟨hmem, hcfg⟩ := step_sameMemCfg h
  exact ⟨fun a => by rw [hmem], hmem, hcfg⟩

end Sys2Proof.Machine
end

section
/-! SUPPORT AND PROOFS. The family of 30_encoding.md: an instruction's fields read back from its canonical word, a row's
word written again from its fields, the row that accepts a word, and the step at a word that `reserved_bits_policy` or
the opcode map refuses. -/

namespace Sys2Proof.Machine

open Sys2Proof.Laws

/-! ### An instruction's canonical word is a word of its row -/

/-- The row of an instruction in the opcode map (30 R90). -/
def rowOf (i : Instr) : Row := opcodeRows[rowIndex i]

theorem rowOf_mem (i : Instr) : rowOf i ∈ opcodeRows := List.getElem_mem _

/-- Laws/PerInstr has the lemma of each constructor. -/
theorem encodesItsRow (i : Instr) : EncodesItsRow.Statement i := by
  cases i with
  | jr b => exact EncodesItsRow.jr b
  | jalr b => exact EncodesItsRow.jalr b
  | maci a imm => exact EncodesItsRow.maci a imm
  | addi d a imm => exact EncodesItsRow.addi d a imm
  | addic d a imm => exact EncodesItsRow.addic d a imm
  | xori d a imm => exact EncodesItsRow.xori d a imm
  | muli d a imm => exact EncodesItsRow.muli d a imm
  | lfMaddS d a b => exact EncodesItsRow.lfMaddS d a b
  | lfMaddD d a b => exact EncodesItsRow.lfMaddD d a b
  | add d a b => exact EncodesItsRow.add d a b
  | addc d a b => exact EncodesItsRow.addc d a b
  | mul d a b => exact EncodesItsRow.mul d a b
  | div d a b => exact EncodesItsRow.div d a b
  | divu d a b => exact EncodesItsRow.divu d a b
  | mulu d a b => exact EncodesItsRow.mulu d a b
  | ff1 d a => exact EncodesItsRow.ff1 d a
  | fl1 d a => exact EncodesItsRow.fl1 d a
  | rfe => exact EncodesItsRow.rfe
  | andi d a imm => exact EncodesItsRow.andi d a imm
  | ori d a imm => exact EncodesItsRow.ori d a imm
  | mfspr d a imm => exact EncodesItsRow.mfspr d a imm
  | mtspr a b imm => exact EncodesItsRow.mtspr a b imm

theorem rowOf_accepts_encode (i : Instr) : (rowOf i).accepts (encode i) = true :=
  beq_iff_eq.mpr (encodesItsRow i).1

theorem encode_and_reserved (i : Instr) : encode i &&& (rowOf i).reserved = 0#32 := (encodesItsRow i).2

/-! ### The fields read back from the formats

Every format is format I with its low half divided further, so the fields are read back there once. -/

section formats

variable (op : BitVec 6) (op2 : BitVec 2) (op3 : BitVec 4) (op8 : BitVec 8) (d a b : RegNum) (imm : Imm16)

theorem fieldImm_encodeI : fieldImm (encodeI op d a imm) = imm := BitVec.extractLsb'_append_eq_right

theorem fieldA_encodeI : fieldA (encodeI op d a imm) = a :=
  (BitVec.extractLsb'_append_eq_of_le (by decide)).trans BitVec.extractLsb'_append_eq_right

theorem fieldD_encodeI : fieldD (encodeI op d a imm) = d :=
  (BitVec.extractLsb'_append_eq_of_le (by decide)).trans
    ((BitVec.extractLsb'_append_eq_of_le (by decide)).trans BitVec.extractLsb'_append_eq_right)

theorem fieldB_encodeI (low : BitVec 11) : fieldB (encodeI op d a (b ++ low)) = b :=
  (BitVec.extractLsb'_append_eq_of_add_le (by decide)).trans BitVec.extractLsb'_append_eq_left

theorem encodeR_eq_encodeI :
    encodeR op2 op3 d a b = encodeI 0x38 d a (b ++ (0#1 ++ op2 ++ 0#4 ++ op3)) := by
  refine BitVec.eq_of_getLsbD_eq fun i hi => ?_
  simp only [encodeR, encodeI, BitVec.getLsbD_append]
  interval_cases i <;> simp

theorem encodeRA_eq_encodeI : encodeRA op2 d a = encodeI 0x38 d a (0#5 ++ (0#1 ++ op2 ++ 0#4 ++ 0xf#4)) :=
  encodeR_eq_encodeI op2 0xf d a 0

theorem encodeAI_eq_encodeI : encodeAI a imm = encodeI 0x13 0 a imm := rfl

theorem encodeJR_eq_encodeI : encodeJR op b = encodeI op 0 0 (b ++ 0#11) := by
  refine BitVec.eq_of_getLsbD_eq fun i hi => ?_
  simp only [encodeJR, encodeI, BitVec.getLsbD_append]
  interval_cases i <;> simp

theorem encodeF_eq_encodeI : encodeF op8 d a b = encodeI 0x32 d a (b ++ (0#3 ++ op8)) := by
  refine BitVec.eq_of_getLsbD_eq fun i hi => ?_
  simp only [encodeF, encodeI, BitVec.getLsbD_append]
  interval_cases i <;> simp

theorem encodeMTSPR_eq_encodeI :
    encodeMTSPR a b imm = encodeI 0x30 (imm.extractLsb' 11 5) a (b ++ imm.extractLsb' 0 11) :=
  BitVec.append_assoc

/-- The two halves of the split immediate, in the places of `D` and below `B`, join again (45 R202). -/
theorem fieldSplitImm_encodeI :
    fieldSplitImm (encodeI op (imm.extractLsb' 11 5) a (b ++ imm.extractLsb' 0 11)) = imm := by
  have hhigh : (encodeI op (imm.extractLsb' 11 5) a (b ++ imm.extractLsb' 0 11)).extractLsb' 21 5 =
      imm.extractLsb' 11 5 := fieldD_encodeI op _ a _
  have hlow : (encodeI op (imm.extractLsb' 11 5) a (b ++ imm.extractLsb' 0 11)).extractLsb' 0 11 =
      imm.extractLsb' 0 11 :=
    (BitVec.extractLsb'_append_eq_of_add_le (by decide)).trans BitVec.extractLsb'_append_eq_right
  have hjoin : imm.extractLsb' 11 5 ++ imm.extractLsb' 0 11 = imm :=
    (BitVec.extractLsb'_append_extractLsb'_eq_extractLsb' rfl).trans BitVec.extractLsb'_eq_self
  rw [fieldSplitImm, hhigh, hlow, hjoin]

end formats

/-- An instruction's row takes the instruction, operands and all, from its canonical word. -/
theorem build_encode (i : Instr) : (rowOf i).build (encode i) = i := by
  cases i with
  | jr | jalr =>
    simp [rowOf, rowIndex, opcodeRows, encode, encodeJR_eq_encodeI, fieldB_encodeI]
  | maci => simp [rowOf, rowIndex, opcodeRows, encode, encodeAI_eq_encodeI, fieldA_encodeI, fieldImm_encodeI]
  | addi | addic | xori | muli | andi | ori | mfspr =>
    simp [rowOf, rowIndex, opcodeRows, encode, fieldD_encodeI, fieldA_encodeI, fieldImm_encodeI]
  | lfMaddS | lfMaddD =>
    simp [rowOf, rowIndex, opcodeRows, encode, encodeF_eq_encodeI, fieldD_encodeI, fieldA_encodeI, fieldB_encodeI]
  | add | addc | mul | div | divu | mulu =>
    simp [rowOf, rowIndex, opcodeRows, encode, encodeR_eq_encodeI, fieldD_encodeI, fieldA_encodeI, fieldB_encodeI]
  | ff1 | fl1 => simp [rowOf, rowIndex, opcodeRows, encode, encodeRA_eq_encodeI, fieldD_encodeI, fieldA_encodeI]
  | rfe => rfl
  | mtspr =>
    simp [rowOf, rowIndex, opcodeRows, encode, encodeMTSPR_eq_encodeI, fieldSplitImm_encodeI, fieldA_encodeI,
      fieldB_encodeI]

/-- Settles O1: the canonical word is its row's, with every reserved bit 0, so either policy lets the row build. -/
theorem decodeOfEncode : Obligations.DecodeOfEncode := by
  intro policy i
  rw [decode_of_accepts policy (rowOf_mem i) (rowOf_accepts_encode i), encode_and_reserved, build_encode]
  simp

/-! ### A row's word written again from its fields -/

section words

variable (op : BitVec 6) (op2 : BitVec 2) (op3 : BitVec 4) (op8 : BitVec 8) (w : Word)

theorem encodeR_fields :
    encodeR op2 op3 (fieldD w) (fieldA w) (fieldB w) = w &&& 0x03FFF800 ||| encodeR op2 op3 0 0 0 := by
  refine BitVec.eq_of_getLsbD_eq fun i hi => ?_
  simp only [encodeR, fieldD, fieldA, fieldB, BitVec.getLsbD_or, BitVec.getLsbD_and, BitVec.getLsbD_append,
    BitVec.getLsbD_extractLsb']
  interval_cases i <;> simp

theorem encodeRA_fields : encodeRA op2 (fieldD w) (fieldA w) = w &&& 0x03FF0000 ||| encodeRA op2 0 0 := by
  refine BitVec.eq_of_getLsbD_eq fun i hi => ?_
  simp only [encodeRA, fieldD, fieldA, BitVec.getLsbD_or, BitVec.getLsbD_and, BitVec.getLsbD_append,
    BitVec.getLsbD_extractLsb']
  interval_cases i <;> simp

theorem encodeI_fields :
    encodeI op (fieldD w) (fieldA w) (fieldImm w) = w &&& 0x03FFFFFF ||| encodeI op 0 0 0 := by
  refine BitVec.eq_of_getLsbD_eq fun i hi => ?_
  simp only [encodeI, fieldD, fieldA, fieldImm, BitVec.getLsbD_or, BitVec.getLsbD_and, BitVec.getLsbD_append,
    BitVec.getLsbD_extractLsb']
  interval_cases i <;> simp

theorem encodeAI_fields : encodeAI (fieldA w) (fieldImm w) = w &&& 0x001FFFFF ||| encodeAI 0 0 := by
  refine BitVec.eq_of_getLsbD_eq fun i hi => ?_
  simp only [encodeAI, fieldA, fieldImm, BitVec.getLsbD_or, BitVec.getLsbD_and, BitVec.getLsbD_append,
    BitVec.getLsbD_extractLsb']
  interval_cases i <;> simp

theorem encodeJR_fields : encodeJR op (fieldB w) = w &&& 0x0000F800 ||| encodeJR op 0 := by
  refine BitVec.eq_of_getLsbD_eq fun i hi => ?_
  simp only [encodeJR, fieldB, BitVec.getLsbD_or, BitVec.getLsbD_and, BitVec.getLsbD_append,
    BitVec.getLsbD_extractLsb']
  interval_cases i <;> simp

theorem encodeF_fields :
    encodeF op8 (fieldD w) (fieldA w) (fieldB w) = w &&& 0x03FFF800 ||| encodeF op8 0 0 0 := by
  refine BitVec.eq_of_getLsbD_eq fun i hi => ?_
  simp only [encodeF, fieldD, fieldA, fieldB, BitVec.getLsbD_or, BitVec.getLsbD_and, BitVec.getLsbD_append,
    BitVec.getLsbD_extractLsb']
  interval_cases i <;> simp

theorem encodeMTSPR_fields :
    encodeMTSPR (fieldA w) (fieldB w) (fieldSplitImm w) = w &&& 0x03FFFFFF ||| encodeMTSPR 0 0 0 := by
  refine BitVec.eq_of_getLsbD_eq fun i hi => ?_
  simp only [encodeMTSPR, fieldA, fieldB, fieldSplitImm, BitVec.getLsbD_or, BitVec.getLsbD_and, BitVec.getLsbD_append,
    BitVec.getLsbD_extractLsb']
  interval_cases i <;> simp

theorem encode_rfe_fields : encode .rfe = w &&& 0 ||| encode .rfe := by simp

end words

/-- The bits of a row's words that hold the operands: neither selected by the mask nor reserved (30 R90). -/
def operandBits (r : Row) : Word := ~~~(r.mask ||| r.reserved)

/-- The canonical word of the instruction that a row takes from a word keeps the word's operand bits, and no others. -/
theorem encode_build : ∀ r ∈ opcodeRows, ∀ w, encode (r.build w) = w &&& operandBits r ||| r.pattern := by
  unfold opcodeRows
  simp only [List.forall_mem_cons]
  exact ⟨fun w => (encodeJR_fields _ w).trans rfl, fun w => (encodeJR_fields _ w).trans rfl,
    fun w => (encodeAI_fields w).trans rfl,
    fun w => (encodeI_fields _ w).trans rfl, fun w => (encodeI_fields _ w).trans rfl,
    fun w => (encodeI_fields _ w).trans rfl, fun w => (encodeI_fields _ w).trans rfl,
    fun w => (encodeF_fields _ w).trans rfl, fun w => (encodeF_fields _ w).trans rfl,
    fun w => (encodeR_fields _ _ w).trans rfl, fun w => (encodeR_fields _ _ w).trans rfl,
    fun w => (encodeR_fields _ _ w).trans rfl, fun w => (encodeR_fields _ _ w).trans rfl,
    fun w => (encodeR_fields _ _ w).trans rfl, fun w => (encodeR_fields _ _ w).trans rfl,
    fun w => (encodeRA_fields _ w).trans rfl, fun w => (encodeRA_fields _ w).trans rfl,
    fun w => (encodeI_fields _ w).trans rfl,
    fun w => (encodeMTSPR_fields w).trans rfl,
    fun w => (encodeI_fields _ w).trans rfl, fun w => (encodeI_fields _ w).trans rfl,
    fun w => (encode_rfe_fields w).trans rfl,
    List.forall_mem_nil _⟩

/-- A word of a row with no reserved bit set is its operand bits and the row's pattern. -/
theorem operandBits_or_pattern {r : Row} {w : Word} (hr : r.accepts w = true) (hres : w &&& r.reserved = 0#32) :
    w &&& operandBits r ||| r.pattern = w := by
  rw [Row.accepts, beq_iff_eq] at hr
  have hfixed : w &&& (r.mask ||| r.reserved) = r.pattern := by
    rw [BitVec.and_or_distrib_left, hr, hres, BitVec.or_zero]
  rw [operandBits, ← hfixed, ← BitVec.and_or_distrib_left, BitVec.not_or_self, BitVec.and_allOnes]

/-- Settles O2: a word that a row accepts with no reserved bit set is its operand bits and the row's pattern, which the
canonical word keeps. -/
theorem encodeOfDecode : Obligations.EncodeOfDecode := by
  intro w i h
  obtain ⟨r, hm, hr, rfl, hres⟩ := decode_ok h
  rw [encode_build r hm w, operandBits_or_pattern hr (hres rfl)]

/-! ### The row that accepts a word -/

/-- Settles O3: of two rows the earlier shares no word with the later. -/
theorem atMostOneRowAccepts : Obligations.AtMostOneRowAccepts := by
  intro w j k hj hk
  have hearlier : ∀ {m n : Fin opcodeRows.length}, m < n → opcodeRows[m].accepts w = true →
      opcodeRows[n].accepts w = false := fun {m n} hlt hm =>
    Row.not_accepts_of_disjoint (List.pairwise_iff_getElem.mp opcodeRows_pairwise_disjoint m n m.isLt n.isLt hlt) hm
  rcases lt_trichotomy j k with hlt | heq | hlt
  · exact absurd hk (by rw [hearlier hlt hj]; decide)
  · exact heq
  · exact absurd hj (by rw [hearlier hlt hk]; decide)

theorem decode_of_no_row {w : Word} (policy : ReservedBits)
    (h : ∀ k : Fin opcodeRows.length, opcodeRows[k].accepts w = false) : decode policy w = .error .unlisted := by
  have hnone : opcodeRows.find? (fun r => r.accepts w) = none := by
    rw [List.find?_eq_none]
    intro r hr
    obtain ⟨n, hn, rfl⟩ := List.mem_iff_getElem.mp hr
    simpa using h ⟨n, hn⟩
  rw [decode, hnone]

/-! ### The step at a word that is refused -/

/-- A step that takes no interrupt and is not at `halt_addr` is refused where the word it fetched is no instruction. -/
theorem step_of_decode_error {s : State} {w : Word} {e : DecodeError} (hi : s.sample.interruptTaken = false)
    (hhalt : s.cfg.haltAddr ≠ some s.pc) (hw : s.sample.fetch = .ok w)
    (hdec : decode s.cfg.reservedBits w = .error e) : step s = .refused (refusalOf w e) := by
  have hd : s.sample.decodeWord w = .error (refusalOf w e) := by
    rw [State.decodeWord, show decode s.sample.cfg.reservedBits w = .error e from hdec]
  exact step_of_decodeWord_error hi ((atHalt_eq_false_iff s.sample).mpr hhalt) hw hd

/-- Settles O4: the policy decides what the decoder answers for the word, and the step follows the decoder; the row of
a canonical word is its instruction's. -/
theorem reservedBitsPolicyDecides : Obligations.ReservedBitsPolicyDecides := by
  refine ⟨fun s w k hi hhalt hw hacc hset => ?_,
    fun i => ⟨rowIndex i, rowOf_accepts_encode i, encode_and_reserved i⟩⟩
  have hdec := decode_of_accepts s.cfg.reservedBits (List.getElem_mem k.isLt) hacc
  refine ⟨fun hpol => ?_, fun hpol hgprs => ?_⟩
  · rw [if_pos ⟨hpol, hset⟩] at hdec
    exact step_of_decode_error hi hhalt hw hdec
  · rw [if_neg (by simp [hpol])] at hdec
    obtain ⟨hruns, -, -⟩ := stepRunsDecodedInstruction s w _ hi hhalt hw hdec
    exact hruns hgprs

/-- Settles O5: a word of no row is no instruction under either policy. -/
theorem unlistedWordRefused : Obligations.UnlistedWordRefused := by
  intro s w hi hhalt hw hnone
  exact step_of_decode_error hi hhalt hw (decode_of_no_row _ hnone)

end Sys2Proof.Machine
end

section
/-! SUPPORT AND PROOFS. The family of 40_orbis_add.md: the common end of the arithmetic read backwards, the four
additions as one sum with a carry in, what the arithmetic leaves alone, and the words of the examples. -/

namespace Sys2Proof.Machine

open Sys2Proof.Safety

/-! ### The common ends of the instructions: completing, and what a next state tells -/

/-- An arithmetic instruction that raises no Range exception writes rD, CY and OV and goes on (40 R100). -/
theorem finishArith_completes {s s' : State} (d : RegNum) (v : Word) (cy ov : Bool) {trap : Bool} (n : Nat)
    (hgo : CanGoOn s) (hs : s' = { s with draws := s.draws + n }) (hno : ¬(trap = true ∧ s.flag .OVE = true)) :
    ∃ t, s.finishArith s' d v cy ov trap = .next t ∧ WritesWithFlags s t d v cy ov n := by
  rcases finishArith_cases s s' d v cy ov trap with ⟨htrap, hove, -⟩ | ⟨-, h⟩
  · exact absurd ⟨htrap, hove⟩ hno
  · rw [h]
    exact writeFlags_advance d v cy ov n hgo hs

/-- A next state of an arithmetic instruction is one of two: it completed, or it took the Range exception (40 R105). -/
theorem finishArith_next {s s' t : State} {d : RegNum} {v : Word} {cy ov trap : Bool} {n : Nat}
    (hs : s' = { s with draws := s.draws + n }) (h : s.finishArith s' d v cy ov trap = .next t) :
    WritesWithFlags s t d v cy ov n ∨ RangeTaken s t d v cy ov n := by
  by_cases hrange : trap = true ∧ s.flag .OVE = true
  · obtain ⟨rfl, hove⟩ := hrange
    obtain ⟨u, hu, htaken⟩ := finishArith_range d v cy ov n hs hove
    cases h.symm.trans hu
    exact .inr htaken
  · have hadv : ((s'.writeGpr d v).setCarryOverflow cy ov).advance = .next t := by
      rcases finishArith_cases s s' d v cy ov trap with ⟨htrap, hove, -⟩ | ⟨-, he⟩
      · exact absurd ⟨htrap, hove⟩ hrange
      · rw [← he, h]
    have hgo : CanGoOn s := by
      subst hs
      exact ((advance_next_iff _ _).mp hadv).1
    obtain ⟨u, hu, hwrites⟩ := finishArith_completes d v cy ov n hgo hs hrange
    cases h.symm.trans hu
    exact .inl hwrites

/-- A next state after one register write and going on. -/
theorem writeGpr_advance_next {s t : State} {d : RegNum} {v : Word} (h : (s.writeGpr d v).advance = .next t) :
    WritesOnly s t d v := by
  have hgo : CanGoOn s := ((advance_next_iff _ _).mp h).1
  obtain ⟨u, hu, hwrites⟩ := writeGpr_advance d v hgo
  cases h.symm.trans hu
  exact hwrites

/-! ### The additions -/

/-- An addition with the sum, the carry and the overflow of 40 R100. -/
theorem addInto_eq (s : State) (d : RegNum) (x y : Word) (c : Bool) :
    s.addInto d x y c =
      s.finishArith s d (x + y + BitVec.ofNat 32 (carryIn c)) (decide (0x100000000 ≤ x.toNat + y.toNat + carryIn c))
        (decide ¬FitsSigned (x.toInt + y.toInt + carryIn c))
        (decide ¬FitsSigned (x.toInt + y.toInt + carryIn c)) := by
  rw [State.addInto, addResult_eq, addCarry, addOverflow_eq]

/-- The four additions differ in their operands alone (40 R101 to R104). -/
theorem exec_of_additionOf {i : Instr} {s : State} {d : RegNum} {x y : Word} {c : Bool}
    (h : additionOf s i = some (d, x, y, c)) : exec i s = s.addInto d x y c := by
  cases i with
  | add | addc | addi | addic => cases h; rfl
  | _ => cases h

/-- Every addition whose sum fits, or that finds OVE clear, completes (40 R100). -/
theorem addition_completes {i : Instr} {s : State} {d : RegNum} {x y : Word} {c : Bool}
    (hi : additionOf s i = some (d, x, y, c)) (hgo : CanGoOn s)
    (hfits : s.flag .OVE = true → FitsSigned (x.toInt + y.toInt + carryIn c)) :
    ∃ t, exec i s = .next t ∧
      WritesWithFlags s t d (x + y + BitVec.ofNat 32 (carryIn c))
        (decide (0x100000000 ≤ x.toNat + y.toNat + carryIn c))
        (decide ¬FitsSigned (x.toInt + y.toInt + carryIn c)) 0 := by
  rw [exec_of_additionOf hi, addInto_eq]
  refine finishArith_completes d _ _ _ 0 hgo rfl ?_
  rintro ⟨htrap, hove⟩
  exact of_decide_eq_true htrap (hfits hove)

/-- The sign-extended immediate has the immediate's value (30 R89). -/
theorem toInt_signExtend_imm (imm : Imm16) : (imm.signExtend 32).toInt = imm.toInt :=
  BitVec.toInt_signExtend_of_le (by decide)

/-- Settles O28: the carry in is 0. -/
theorem addCompletes : Obligations.AddCompletes := by
  rintro s d a b x y rfl rfl hgo hfits
  have h := addition_completes (i := .add d a b) rfl hgo (by simpa [carryIn] using hfits)
  simpa [carryIn] using h

/-- Settles O29: the carry in is CY. -/
theorem addcCompletes : Obligations.AddcCompletes := by
  rintro s d a b x y c rfl rfl rfl hgo hfits
  exact addition_completes (i := .addc d a b) rfl hgo hfits

/-- Settles O30: the carry in is 0, the second addend the immediate. -/
theorem addiCompletes : Obligations.AddiCompletes := by
  rintro s d a imm x y rfl rfl hgo hfits
  rw [← toInt_signExtend_imm] at hfits ⊢
  have h := addition_completes (i := .addi d a imm) rfl hgo (by simpa [carryIn] using hfits)
  simpa [carryIn] using h

/-- Settles O31: the carry in is CY, the second addend the immediate. -/
theorem addicCompletes : Obligations.AddicCompletes := by
  rintro s d a imm x y c rfl rfl rfl hgo hfits
  rw [← toInt_signExtend_imm] at hfits ⊢
  exact addition_completes (i := .addic d a imm) rfl hgo hfits

/-- Settles O32: a sum that does not fit is the condition of the trap. -/
theorem additionTakesRange : Obligations.AdditionTakesRange := by
  intro i s d x y c hi hove hover
  rw [exec_of_additionOf hi, addInto_eq, decide_eq_true hover]
  exact finishArith_range d _ _ true 0 rfl hove

/-! ### What the arithmetic leaves alone -/

/-- A multiplication draws CY as a free value only under that setting of `mul_carry` (43 R161). -/
theorem mulInto_eq (s : State) (d : RegNum) (x y : Word) :
    s.mulInto d x y =
      s.finishArith { s with draws := s.draws + if s.cfg.mulCarry = .ucarry then 0 else 1 } d (mulResult x y)
        (if s.cfg.mulCarry = .ucarry then mulUnsignedCarry x y else s.drawn.getLsbD 0) (mulOverflow x y)
        (mulOverflow x y) := by
  cases h : s.cfg.mulCarry <;> simp [State.mulInto, State.afterDraw, h]

/-- A division draws a free quotient only where the spec states none (41 R124). -/
theorem divInto_eq (s : State) (d : RegNum) (y quotient : Word) (isOpen : Bool) :
    s.divInto d y quotient isOpen =
      s.finishArith { s with draws := s.draws + if isOpen then 1 else 0 } d (if isOpen then s.drawn else quotient)
        (divCarry y) false (divCarry y) := by
  cases isOpen <;> rfl

theorem exec_of_multiplicationOf {i : Instr} {s : State} {d : RegNum} {x y : Word}
    (h : multiplicationOf s i = some (d, x, y)) : exec i s = s.mulInto d x y := by
  cases i with
  | mul | muli => cases h; rfl
  | _ => cases h

theorem exec_of_divisionOf {i : Instr} {s : State} {d : RegNum} {y : Word} (h : divisionOf s i = some (d, y)) :
    ∃ quotient isOpen, exec i s = s.divInto d y quotient isOpen := by
  cases i with
  | div | divu => cases h; exact ⟨_, _, rfl⟩
  | _ => cases h

/-- The instructions that write rD, CY and OV: the additions, the multiplications and the divisions. -/
def WritesFlagsInto (s : State) (i : Instr) (d : RegNum) : Prop :=
  (additionOf s i).map (·.1) = some d ∨ (multiplicationOf s i).map (·.1) = some d ∨
    (divisionOf s i).map (·.1) = some d ∨ ∃ a b, i = .mulu d a b

/-- They all end in the same way, some free values having been drawn (40 R105). -/
theorem exec_eq_finishArith {s : State} {i : Instr} {d : RegNum} (h : WritesFlagsInto s i d) :
    ∃ n v cy ov trap, exec i s = s.finishArith { s with draws := s.draws + n } d v cy ov trap := by
  rcases h with h | h | h | ⟨a, b, rfl⟩
  · obtain ⟨⟨_, x, y, c⟩, hop, rfl⟩ := Option.map_eq_some_iff.mp h
    exact ⟨0, _, _, _, _, (exec_of_additionOf hop).trans (addInto_eq s _ x y c)⟩
  · obtain ⟨⟨_, x, y⟩, hop, rfl⟩ := Option.map_eq_some_iff.mp h
    exact ⟨_, _, _, _, _, (exec_of_multiplicationOf hop).trans (mulInto_eq s _ x y)⟩
  · obtain ⟨⟨_, y⟩, hop, rfl⟩ := Option.map_eq_some_iff.mp h
    obtain ⟨quotient, isOpen, hexec⟩ := exec_of_divisionOf hop
    exact ⟨_, _, _, _, _, hexec.trans (divInto_eq s _ y quotient isOpen)⟩
  · exact ⟨0, mulResult (s.readGpr a) (s.readGpr b), mulUnsignedCarry (s.readGpr a) (s.readGpr b), false, false,
      rfl⟩

/-- What those instructions leave alone (40 R106, 41 R125, 43 R167): all but rD, CY, OV and what trap entry changes. -/
def ArithmeticFrame (d : RegNum) (s t : State) : Prop :=
  KeepsGprBut [d] s t ∧ KeepsMac s t ∧ KeepsFpcsr s t ∧ KeepsPic s t ∧ KeepsMemory s t ∧ KeepsInputs s t ∧
  ((KeepsSrBut [.CY, .OV] s t ∧ KeepsSaved s t) ∨
   ∃ sr, Entered .range s t sr s.eear0 ∧
     ∀ n, n ∉ [SrField.CY, .OV].map SrField.pos → sr.getLsbD n = s.sr.getLsbD n)

theorem arithmeticFrame_of_writesWithFlags {s t : State} {d : RegNum} {v : Word} {cy ov : Bool} {n : Nat}
    (h : WritesWithFlags s t d v cy ov n) : ArithmeticFrame d s t := by
  obtain ⟨-, -, -, hgpr, hsr, ⟨hmac, hsaved, hfp, hpic⟩, hmem, hin, -, -⟩ := h
  exact ⟨hgpr, hmac, hfp, hpic, hmem, hin, .inl ⟨hsr, hsaved⟩⟩

/-- Under `range_commits` the SR that trap entry saves has the new CY and OV, otherwise it is the old SR (40 R105). -/
theorem arithmeticFrame_of_rangeTaken {s t : State} {d : RegNum} {v : Word} {cy ov : Bool} {n : Nat}
    (h : RangeTaken s t d v cy ov n) : ArithmeticFrame d s t := by
  obtain ⟨hmac, hfp, hpic, hmem, hin, hcommits, hwithholds⟩ := h
  cases hc : s.cfg.rangeCommits with
  | true =>
    obtain ⟨hentered, -, hgpr, -⟩ := hcommits hc
    refine ⟨hgpr, hmac, hfp, hpic, hmem, hin, .inr ⟨_, hentered, fun m hm => ?_⟩⟩
    obtain ⟨hcy, hov⟩ : m ≠ SrField.CY.pos ∧ m ≠ SrField.OV.pos := by simpa using hm
    rw [getLsbD_setSr, if_neg hov, getLsbD_setSr, if_neg hcy]
  | false =>
    obtain ⟨hentered, hgpr, -⟩ := hwithholds hc
    exact ⟨fun r _ => hgpr r List.not_mem_nil, hmac, hfp, hpic, hmem, hin, .inr ⟨_, hentered, fun _ _ => rfl⟩⟩

theorem arithmeticFrame_of_exec {i : Instr} {d : RegNum} {s t : State} (hi : WritesFlagsInto s i d)
    (h : exec i s = .next t) : ArithmeticFrame d s t := by
  obtain ⟨n, v, cy, ov, trap, hexec⟩ := exec_eq_finishArith hi
  rcases finishArith_next rfl (hexec.symm.trans h) with hwrites | htaken
  · exact arithmeticFrame_of_writesWithFlags hwrites
  · exact arithmeticFrame_of_rangeTaken htaken

/-- The bit searches and `l.xori` write their destination only (41 R122, R123, 43 R166). -/
theorem writesOnly_of_exec {i : Instr} {d a : RegNum} {s t : State}
    (hi : i = .ff1 d a ∨ i = .fl1 d a ∨ ∃ imm, i = .xori d a imm) (h : exec i s = .next t) :
    ∃ v, WritesOnly s t d v := by
  rcases hi with rfl | rfl | ⟨imm, rfl⟩ <;> exact ⟨_, writeGpr_advance_next h⟩

/-- `l.maci` writes the accumulator and goes on (43 R160). -/
theorem exec_maci_next {a : RegNum} {imm : Imm16} {s t : State} (h : exec (.maci a imm) s = .next t) :
    ∃ acc, t = { s.setAccumulator acc with pc := s.ds.getD (s.pc + 4), ds := none } := by
  simp only [exec, execMaci] at h
  split at h
  · exact ⟨_, ((advance_next_iff _ _).mp h).2⟩
  · cases h

/-- Settles O25: the additions, multiplications and divisions end in one way, the bit searches and `l.xori` in another,
and `l.maci` writes the accumulator. -/
theorem arithmeticTouchesNothingElse : Obligations.ArithmeticTouchesNothingElse := by
  refine ⟨fun i d s t hi h => arithmeticFrame_of_exec hi h, fun i d a s t hi h => ?_, fun a imm s t h => ?_⟩
  · obtain ⟨v, -, hgpr, hsr, hsprs, hmem, hin, -, -⟩ := writesOnly_of_exec hi h
    exact ⟨hgpr, hsr, hsprs, hmem, hin⟩
  · obtain ⟨acc, rfl⟩ := exec_maci_next h
    exact ⟨fun _ _ => rfl, rfl, ⟨rfl, rfl, rfl⟩, rfl, ⟨rfl, rfl⟩, fun _ => rfl, rfl, rfl, rfl, rfl⟩

/-! ### The words of the examples -/

/-- A word decodes to the instruction whose canonical word it is. -/
theorem decode_of_encode_eq {i : Instr} {w : Word} (policy : ReservedBits) (h : encode i = w) :
    decode policy w = .ok i := by
  rw [← h]
  exact decodeOfEncode policy i

/-- Settles O6: each word is the canonical word of the instruction beside it. -/
theorem specWordsDecode : Obligations.SpecWordsDecode := by
  refine ⟨?_, ?_, ?_, ?_, ?_, ?_, ?_, ?_⟩ <;> exact decode_of_encode_eq .refuse (by decide)

end Sys2Proof.Machine
end

section
/-! SUPPORT AND PROOFS. The family of 41_orbis_div_find.md: the divisions whose quotient is stated and those whose quotient
is free, and the two bit searches as one search in two orders. -/

namespace Sys2Proof.Machine

open Sys2Proof.Safety

/-! ### The divisions -/

theorem divCarry_zero : divCarry 0#32 = true := rfl

theorem divCarry_of_ne_zero {y : Word} (h : y ≠ 0#32) : divCarry y = false := beq_eq_false_iff_ne.mpr h

theorem divUnrepresentable_iff (x y : Word) :
    divUnrepresentable x y = true ↔ x = 0x80000000#32 ∧ y = 0xFFFFFFFF#32 := by
  simp [divUnrepresentable]

/-- A division by zero writes a free value, CY 1 and OV 0, and asks for the Range exception (41 R120, R121, R124). -/
theorem exec_of_zero_divisor {i : Instr} {s : State} {d : RegNum} (h : divisionOf s i = some (d, 0#32)) :
    exec i s = s.finishArith { s with draws := s.draws + 1 } d s.drawn true false true := by
  cases i with
  | div d' a b | divu d' a b =>
    obtain ⟨rfl, hb⟩ : d' = d ∧ s.readGpr b = 0#32 := by simpa [divisionOf] using h
    change s.divInto _ _ _ _ = _
    rw [hb, divCarry_zero, divInto_eq]
    rfl
  | _ => cases h

/-- A division by another divisor raises no exception and completes with CY 0 and OV 0 (41 R120, R121). -/
theorem divInto_completes {s : State} (d : RegNum) {y : Word} (quotient : Word) (isOpen : Bool) (hgo : CanGoOn s)
    (hy : y ≠ 0#32) :
    ∃ t, s.divInto d y quotient isOpen = .next t ∧
      WritesWithFlags s t d (if isOpen then s.drawn else quotient) false false (if isOpen then 1 else 0) := by
  rw [divInto_eq, divCarry_of_ne_zero hy]
  exact finishArith_completes d _ false false _ hgo rfl (by simp)

/-- Settles O34: the zero divisor is the condition of the trap. -/
theorem divisionByZeroTakesRange : Obligations.DivisionByZeroTakesRange := by
  intro i s d hi hove
  rw [exec_of_zero_divisor hi]
  obtain ⟨t, hnext, htaken⟩ := finishArith_range d s.drawn true false 1 rfl hove
  exact ⟨t, s.drawn, hnext, htaken⟩

/-- Settles O35: neither case in which the quotient is free. -/
theorem divCompletes : Obligations.DivCompletes := by
  rintro s d a b x y rfl rfl hgo hy hrep
  have hstated : (divCarry (s.readGpr b) || divUnrepresentable (s.readGpr a) (s.readGpr b)) = false := by
    rw [divCarry_of_ne_zero hy, Bool.false_or, ← Bool.not_eq_true, divUnrepresentable_iff]
    exact hrep
  obtain ⟨t, hnext, hwrites⟩ := divInto_completes d (divSigned (s.readGpr a) (s.readGpr b)) false hgo hy
  rw [← hstated] at hnext
  exact ⟨t, _, hnext, divSigned_toInt hrep, hwrites⟩

/-- Settles O36: the one case in which the quotient is free is excluded. -/
theorem divuCompletes : Obligations.DivuCompletes := by
  rintro s d a b x y rfl rfl hgo hy
  obtain ⟨t, hnext, hwrites⟩ := divInto_completes d (divUnsigned (s.readGpr a) (s.readGpr b)) false hgo hy
  rw [← divCarry_of_ne_zero hy] at hnext
  exact ⟨t, _, hnext, divUnsigned_toNat _ _, hwrites⟩

/-- Settles O37: the zero divisor without OVE, and the quotient 2^31. -/
theorem openQuotientCompletes : Obligations.OpenQuotientCompletes := by
  refine ⟨fun i s d hi hgo hove => ?_, fun s d a b ha hb hgo => ?_⟩
  · rw [exec_of_zero_divisor hi]
    obtain ⟨t, hnext, hwrites⟩ := finishArith_completes (trap := true) d s.drawn true false 1 hgo rfl (by simp [hove])
    exact ⟨t, s.drawn, hnext, hwrites⟩
  · have hy : s.readGpr b ≠ 0#32 := by rw [hb]; decide
    have hopen : (divCarry (s.readGpr b) || divUnrepresentable (s.readGpr a) (s.readGpr b)) = true := by
      rw [(divUnrepresentable_iff _ _).mpr ⟨ha, hb⟩, Bool.or_true]
    obtain ⟨t, hnext, hwrites⟩ := divInto_completes d (divSigned (s.readGpr a) (s.readGpr b)) true hgo hy
    rw [← hopen] at hnext
    exact ⟨t, s.drawn, hnext, hwrites⟩

/-! ### The bit searches -/

/-- One more than the first place, in an order of search, at which a bit of `x` is set, or 0. -/
def firstPlaceIn (order : List Nat) (x : Word) : Word :=
  match order.find? (fun i => x.getLsbD i) with
  | some i => BitVec.ofNat 32 (i + 1)
  | none => 0#32

theorem findFirstOne_eq (x : Word) : findFirstOne x = firstPlaceIn (List.range 32) x := rfl

theorem findLastOne_eq (x : Word) : findLastOne x = firstPlaceIn (List.range 32).reverse x := rfl

/-- What a search finds in an ordered list comes before everything else in the list that it could have found. -/
theorem find?_precedes {α : Type} {R : α → α → Prop} {p : α → Bool} {l : List α} {i j : α} (hl : l.Pairwise R)
    (hi : l.find? p = some i) (hj : j ∈ l) (hp : p j = true) : j = i ∨ R i j := by
  obtain ⟨-, before, after, rfl, hbefore⟩ := List.find?_eq_some_iff_append.mp hi
  rcases List.mem_append.mp hj with hj | hj
  · exact absurd hp (by simpa using hbefore j hj)
  · exact (List.mem_cons.mp hj).imp_right ((List.pairwise_cons.mp (List.pairwise_append.mp hl).2.1).1 j)

/-- A search through all the places finds none in 0, and else a set bit that comes before every other one. -/
theorem firstPlaceIn_spec {order : List Nat} {R : Nat → Nat → Prop} (hmem : ∀ i, i ∈ order ↔ i < 32)
    (horder : order.Pairwise R) (x : Word) :
    (x = 0#32 ∧ firstPlaceIn order x = 0#32) ∨
    ∃ i, i < 32 ∧ x.getLsbD i = true ∧ (∀ j, j ≠ i → ¬R i j → x.getLsbD j = false) ∧
      (firstPlaceIn order x).toNat = i + 1 := by
  cases hfind : order.find? (fun i => x.getLsbD i) with
  | none =>
    refine .inl ⟨BitVec.eq_of_getLsbD_eq fun i hi => ?_, by simp [firstPlaceIn, hfind]⟩
    simpa using List.find?_eq_none.mp hfind i ((hmem i).mpr hi)
  | some i =>
    have hi : i < 32 := (hmem i).mp (List.mem_of_find?_eq_some hfind)
    refine .inr ⟨i, hi, List.find?_some hfind, fun j hne hR => ?_, ?_⟩
    · rw [← Bool.not_eq_true]
      intro hj
      exact (find?_precedes horder hfind ((hmem j).mpr (BitVec.lt_of_getLsbD hj)) hj).elim hne hR
    · simp only [firstPlaceIn, hfind, BitVec.toNat_ofNat]
      omega

/-- Upward from bit 0 the search finds the lowest set bit (41 R122). -/
theorem isFirstOne_findFirstOne (x : Word) : IsFirstOne x (findFirstOne x) := by
  rw [findFirstOne_eq]
  refine (firstPlaceIn_spec (fun _ => List.mem_range) List.pairwise_lt_range x).imp_right ?_
  rintro ⟨i, hi, hset, hclear, hv⟩
  exact ⟨i, hi, hset, fun j hj => hclear j (by omega) (by omega), hv⟩

/-- Downward from bit 31 the search finds the highest set bit (41 R123, 90 C4). -/
theorem isLastOne_findLastOne (x : Word) : IsLastOne x (findLastOne x) := by
  rw [findLastOne_eq]
  refine (firstPlaceIn_spec (R := (· > ·)) (by simp) (List.pairwise_reverse.mpr List.pairwise_lt_range) x).imp_right ?_
  rintro ⟨i, hi, hset, hclear, hv⟩
  exact ⟨i, hi, hset, fun j hj => hclear j (by omega) (by omega), hv⟩

/-- Settles O38: each search writes the place it finds to rD and goes on. -/
theorem bitSearchesComplete : Obligations.BitSearchesComplete := by
  rintro s d a x rfl hgo
  obtain ⟨t, hff1, hff1Writes⟩ := writeGpr_advance d (findFirstOne (s.readGpr a)) hgo
  obtain ⟨u, hfl1, hfl1Writes⟩ := writeGpr_advance d (findLastOne (s.readGpr a)) hgo
  exact ⟨rfl, rfl, ⟨t, _, hff1, isFirstOne_findFirstOne _, hff1Writes⟩,
    ⟨u, _, hfl1, isLastOne_findLastOne _, hfl1Writes⟩⟩

end Sys2Proof.Machine
end

section
/-! SUPPORT AND PROOFS. The family of 42_orbis_jump.md: the guard of a control transfer, the jump that arms its delay slot,
the jump that takes an exception, and the instruction in the slot. -/

namespace Sys2Proof.Machine

open Sys2Proof.Safety

/-! ### The guard of a control transfer -/

/-- Outside a delay slot a control transfer does what it is for (42 R144). -/
theorem outsideDelaySlot_of_none {s : State} (hds : s.ds = none) (k : Result) : s.outsideDelaySlot k = k := by
  simp [State.outsideDelaySlot, State.inDelaySlot, hds]

/-- In a delay slot it is refused (42 R144). -/
theorem outsideDelaySlot_of_pending {s : State} (hds : s.ds ≠ none) (k : Result) :
    s.outsideDelaySlot k = .refused .transferInDelaySlot :=
  if_pos (Option.isSome_iff_ne_none.mpr hds)

/-- The guards of 45 let a refusal stand or put one of their own before it. -/
theorem ifCompanion_refused (s : State) {k : Result} (hk : ∃ r, k = .refused r) :
    ∃ r, s.ifCompanion k = .refused r := by
  unfold State.ifCompanion
  split
  · exact hk
  · exact ⟨_, rfl⟩

theorem ifSupervisor_refused (s : State) {k : Result} (hk : ∃ r, k = .refused r) :
    ∃ r, s.ifSupervisor k = .refused r := by
  unfold State.ifSupervisor
  split
  · exact hk
  · exact ⟨_, rfl⟩

/-- Settles O56: all three transfers stand behind the guard, and `l.rfe` behind those of 45 as well. -/
theorem transferInDelaySlotRefused : Obligations.TransferInDelaySlotRefused := by
  intro s hds
  exact ⟨fun _ => outsideDelaySlot_of_pending hds _, fun _ => outsideDelaySlot_of_pending hds _,
    ifCompanion_refused s (ifSupervisor_refused s ⟨_, outsideDelaySlot_of_pending hds _⟩)⟩

/-! ### What the jumps do outside a delay slot -/

section outsideSlot

variable {s : State} (hds : s.ds = none)

include hds

theorem exec_jr_aligned {b : RegNum} (hx : wordAligned (s.readGpr b) = true) :
    exec (.jr b) s = s.armDelaySlot (s.readGpr b) :=
  (outsideDelaySlot_of_none hds _).trans (if_pos hx)

theorem exec_jalr_aligned {b : RegNum} (hb : b ≠ linkReg) (hx : wordAligned (s.readGpr b) = true) :
    exec (.jalr b) s = (s.writeGpr linkReg (s.pc + 8)).armDelaySlot (s.readGpr b) :=
  (outsideDelaySlot_of_none hds _).trans ((if_neg hb).trans (if_pos hx))

theorem exec_jalr_link : exec (.jalr linkReg) s = .next (s.takeException .illegal (some s.pc)) :=
  (outsideDelaySlot_of_none hds _).trans (if_pos rfl)

/-- Both jumps fault alike at a misaligned target, the link register apart (42 R143). -/
theorem exec_jump_misaligned {i : Instr} {b : RegNum} (hi : i = .jr b ∨ i = .jalr b ∧ b ≠ linkReg)
    (hx : ¬wordAligned (s.readGpr b) = true) : exec i s = s.raiseAlign (s.readGpr b) := by
  obtain rfl | ⟨rfl, hb⟩ := hi
  · exact (outsideDelaySlot_of_none hds _).trans (if_neg hx)
  · exact (outsideDelaySlot_of_none hds _).trans ((if_neg hb).trans (if_neg hx))

end outsideSlot

/-! ### The jump that arms its delay slot -/

/-- A jump whose delay slot has an address arms it (42 R140, 10 R24). -/
theorem armDelaySlot_of_lt {s : State} (hpc : s.pc.toNat + 4 < 0x100000000) (target : Word) :
    s.armDelaySlot target = .next { s with pc := s.pc + 4, ds := some target } :=
  (armDelaySlot_next_iff s _ target).mpr ⟨decide_eq_false (by omega), rfl⟩

/-- The link register is not the register that may be hardwired to zero (10 R22). -/
theorem readGpr_writeGpr_linkReg (s : State) (v : Word) : (s.writeGpr linkReg v).readGpr linkReg = v := by
  rw [readGpr_writeGpr_self, if_neg fun h => absurd h.2 (by decide)]

/-- Settles O39: the jump moves `pc` and `ds` only. -/
theorem jrCompletes : Obligations.JrCompletes := by
  rintro s b x rfl hds hpc hx
  have hexec := (exec_jr_aligned hds ((wordAligned_iff_extract _).mpr hx)).trans (armDelaySlot_of_lt hpc _)
  obtain ⟨hsprs, hmem, hin⟩ := keeps_of_core_writes s s.gpr (s.pc + 4) (some (s.readGpr b)) s.sr s.draws
  exact ⟨_, hexec, rfl, rfl, fun _ _ => rfl, rfl, hsprs, hmem, hin, rfl⟩

/-- Settles O40: the jump moves `pc` and `ds` after the write of the link register, and the target is what rB held before
that write. -/
theorem jalrCompletes : Obligations.JalrCompletes := by
  rintro s b x rfl hb hds hpc hx
  have hexec := (exec_jalr_aligned hds hb ((wordAligned_iff_extract _).mpr hx)).trans
    (armDelaySlot_of_lt (s := s.writeGpr linkReg (s.pc + 8)) hpc _)
  obtain ⟨hsprs, hmem, hin⟩ := keeps_of_core_writes s (s.writeGpr linkReg (s.pc + 8)).gpr (s.pc + 4)
    (some (s.readGpr b)) s.sr s.draws
  exact ⟨_, hexec, rfl, rfl, readGpr_writeGpr_linkReg s _,
    fun r hr => readGpr_writeGpr_ne s _ (List.ne_of_not_mem_cons hr), rfl, hsprs, hmem, hin, rfl⟩

/-! ### The jump that takes an exception -/

/-- The ALIGN exception of a jump: EEAR0 records the target, or under the other setting a value drawn, and the drawing
touches nothing that trap entry keeps (42 R143, 60 R226). -/
theorem raiseAlign_entered (s : State) (target : Word) :
    ∃ t eear, s.raiseAlign target = .next t ∧ Entered .align s t s.sr eear ∧
      (s.cfg.alignEear = .target → eear = target) ∧ EntryKeeps s t := by
  cases hcfg : s.cfg.alignEear with
  | target =>
    exact ⟨_, target, by simp only [State.raiseAlign, hcfg], entered_takeException s .align (some target),
      fun _ => rfl, entryKeeps_takeException s .align _⟩
  | draw =>
    exact ⟨_, s.drawn, by simp only [State.raiseAlign, hcfg],
      (PlainWrites.refl s).afterDraw.entered .align (some s.drawn), nofun, entryKeeps_takeException s.afterDraw .align _⟩

/-- Settles O41: outside a delay slot both jumps come to the ALIGN exception. -/
theorem misalignedJumpTakesAlign : Obligations.MisalignedJumpTakesAlign := by
  rintro i b s x hi rfl hds hx
  rw [exec_jump_misaligned hds hi (mt (wordAligned_iff_extract _).mp hx)]
  exact raiseAlign_entered s _

/-- Settles O42: the link register is tested before the target. -/
theorem jalrOfLinkTakesIllegal : Obligations.JalrOfLinkTakesIllegal := by
  intro s hds
  exact ⟨_, exec_jalr_link hds, entered_takeException s .illegal (some s.pc), entryKeeps_takeException s .illegal _, rfl⟩

/-! ### The instruction in the delay slot -/

/-- With a jump pending, of the five shapes of a next state two go on, to the target, one is an exception, and the two of
a control transfer do not occur (42 R140, R144). -/
theorem exec_in_slot_next {i : Instr} {s t : State} {target : Word} (hds : s.ds = some target)
    (h : exec i s = .next t) : (t.pc = target ∧ t.ds = none) ∨ ∃ e sr eear, Entered e s t sr eear := by
  have hslot : s.ds ≠ none := by simp [hds]
  have hgoes : s.ds.getD (s.pc + 4) = target := by simp [hds]
  rcases exec_next h with ⟨u, -, -, rfl⟩ | ⟨-, -, -, hnone, -⟩ | ⟨u, e, ea, hu, rfl⟩ | ⟨-, -, hnone, -⟩ |
    ⟨-, -, -, -, u, -, -, -, -, -, rfl⟩
  case inl => exact .inl ⟨hgoes, rfl⟩
  case inr.inl => exact absurd hnone hslot
  case inr.inr.inl => exact .inr ⟨e, u.sr, _, hu.entered e ea⟩
  case inr.inr.inr.inl => exact absurd hnone hslot
  case inr.inr.inr.inr => exact .inl ⟨hgoes, rfl⟩

/-- Settles O43: the jump leaves its target pending, and the instruction in the slot ends there or takes an exception. -/
theorem delaySlotRunsBeforeTarget : Obligations.DelaySlotRunsBeforeTarget := by
  rintro s b x j (rfl | ⟨rfl, hb⟩) hread hds hpc hx
  · obtain ⟨t, hexec, htpc, htds, -⟩ := jrCompletes s b x hread hds hpc hx
    exact ⟨t, hexec, htpc, htds, nofun, fun _ _ => exec_in_slot_next htds⟩
  · obtain ⟨t, hexec, htpc, htds, hlink, -⟩ := jalrCompletes s b x hread hb hds hpc hx
    exact ⟨t, hexec, htpc, htds, fun _ => hlink, fun _ _ => exec_in_slot_next htds⟩

end Sys2Proof.Machine
end

section
/-! SUPPORT AND PROOFS. The family of 43_orbis_mac_mul_xori.md: the two signed multiplications as one, the unsigned one,
the accumulator read back from its halves, and the two immediates of `l.xori`. -/

namespace Sys2Proof.Machine

open Sys2Proof.Safety

/-! ### The multiplications -/

/-- The signed multiplications write the product and the overflow whatever `mul_carry` is; that setting decides only CY
and how many free values are drawn (43 R161 to R163). -/
theorem exec_multiplication_eq {i : Instr} {s : State} {d : RegNum} {x y : Word}
    (hi : multiplicationOf s i = some (d, x, y)) :
    ∃ cy n, exec i s = s.finishArith { s with draws := s.draws + n } d (x * y) cy
        (decide ¬FitsSigned (x.toInt * y.toInt)) (decide ¬FitsSigned (x.toInt * y.toInt)) ∧
      (s.cfg.mulCarry = .ucarry → cy = decide (0x100000000 ≤ x.toNat * y.toNat) ∧ n = 0) := by
  rw [exec_of_multiplicationOf hi, mulInto_eq, mulResult_eq, mulOverflow_eq]
  exact ⟨_, _, rfl, fun hcarry => ⟨if_pos hcarry, if_pos hcarry⟩⟩

/-- A signed multiplication whose product fits, or that finds OVE clear, completes (43 R162). -/
theorem multiplication_completes {i : Instr} {s : State} {d : RegNum} {x y : Word}
    (hi : multiplicationOf s i = some (d, x, y)) (hgo : CanGoOn s)
    (hfits : s.flag .OVE = true → FitsSigned (x.toInt * y.toInt)) :
    ∃ t cy n, exec i s = .next t ∧
      WritesWithFlags s t d (x * y) cy (decide ¬FitsSigned (x.toInt * y.toInt)) n ∧
      (s.cfg.mulCarry = .ucarry → cy = decide (0x100000000 ≤ x.toNat * y.toNat) ∧ n = 0) := by
  obtain ⟨cy, n, hexec, hcarry⟩ := exec_multiplication_eq hi
  have hno : ¬((decide ¬FitsSigned (x.toInt * y.toInt)) = true ∧ s.flag .OVE = true) :=
    fun ⟨htrap, hove⟩ => of_decide_eq_true htrap (hfits hove)
  obtain ⟨t, hnext, hwrites⟩ := finishArith_completes d (x * y) cy _ n hgo rfl hno
  exact ⟨t, cy, n, hexec.trans hnext, hwrites, hcarry⟩

/-- Settles O33: a product that does not fit is the condition of the trap. -/
theorem multiplicationTakesRange : Obligations.MultiplicationTakesRange := by
  intro i s d x y hi hove hover
  obtain ⟨cy, n, hexec, hcarry⟩ := exec_multiplication_eq hi
  rw [decide_eq_true hover] at hexec
  obtain ⟨t, hnext, htaken⟩ := finishArith_range d (x * y) cy true n rfl hove
  exact ⟨t, cy, n, hexec.trans hnext, htaken, hcarry⟩

/-- Settles O45: the second factor is a register. -/
theorem mulCompletes : Obligations.MulCompletes := by
  rintro s d a b x y rfl rfl hgo hfits
  exact multiplication_completes (i := .mul d a b) rfl hgo hfits

/-- Settles O46: the second factor is the sign-extended immediate. -/
theorem muliCompletes : Obligations.MuliCompletes := by
  rintro s d a imm x y rfl rfl hgo hfits
  rw [← toInt_signExtend_imm] at hfits ⊢
  exact multiplication_completes (i := .muli d a imm) rfl hgo hfits

/-- Settles O47: no condition of the trap, so OVE plays no part. -/
theorem muluCompletes : Obligations.MuluCompletes := by
  rintro s d a b x y rfl rfl hgo
  refine ⟨rfl, ?_⟩
  rw [← mulResult_eq]
  exact finishArith_completes (trap := false) d _ _ false 0 hgo rfl (by simp)

/-! ### Multiply-accumulate -/

/-- The two halves written together hold the whole accumulator (43 R160). -/
theorem accumulator_setAccumulator (s : State) (acc : BitVec 64) : (s.setAccumulator acc).accumulator = acc := by
  simp only [State.accumulator, State.setAccumulator_machi, State.setAccumulator_maclo]
  exact (BitVec.extractLsb'_append_extractLsb'_eq_extractLsb' rfl).trans BitVec.extractLsb'_eq_self

/-- Where the MAC is present `l.maci` adds its truncated product to the accumulator and goes on (43 R160). -/
theorem exec_maci_present {s : State} (a : RegNum) (imm : Imm16) (hmac : s.cfg.macPresent = true) :
    exec (.maci a imm) s =
      (s.setAccumulator (s.accumulator + (s.readGpr a * imm.signExtend 32).signExtend 64)).advance := by
  rw [← mulResult_eq]
  exact if_pos hmac

/-- Settles O44: going on keeps the accumulator that was written, and nothing else was. -/
theorem maciCompletes : Obligations.MaciCompletes := by
  rintro s a imm x rfl hmac hgo
  refine ⟨rfl, _, (exec_maci_present a imm hmac).trans (advance_of_canGoOn hgo), accumulator_setAccumulator s _, ?_⟩
  exact ⟨fun _ _ => rfl, rfl, ⟨rfl, rfl, rfl⟩, rfl, ⟨rfl, rfl⟩, fun _ => rfl, ⟨rfl, rfl, rfl, rfl⟩, rfl, rfl, rfl⟩

/-! ### Exclusive or -/

theorem xoriImm_of_sign {cfg : Config} (h : cfg.xoriExt = .sign) (imm : Imm16) :
    xoriImm cfg imm = imm.signExtend 32 := by
  simp only [xoriImm, h, signedImm]

theorem xoriImm_of_zero {cfg : Config} (h : cfg.xoriExt = .zero) (imm : Imm16) :
    xoriImm cfg imm = imm.setWidth 32 := by
  simp only [xoriImm, h, unsignedImm]

/-- Exclusive or with the sign-extended immediate -1 is NOT (43 R166). -/
theorem xor_signExtend_neg_one (x : Word) : x ^^^ (0xFFFF#16).signExtend 32 = ~~~x := BitVec.xor_allOnes

/-- Settles O48: rD receives rA XOR the immediate that `xori_ext` selects. -/
theorem xoriCompletes : Obligations.XoriCompletes := by
  rintro s d a imm x rfl hgo
  obtain ⟨t, hnext, hwrites⟩ := writeGpr_advance d (s.readGpr a ^^^ xoriImm s.cfg imm) hgo
  refine ⟨t, _, hnext, hwrites, fun hsign => ?_, fun hzero => ?_⟩
  · rw [xoriImm_of_sign hsign]
    refine ⟨rfl, ?_⟩
    rintro rfl
    exact xor_signExtend_neg_one _
  · rw [xoriImm_of_zero hzero]

end Sys2Proof.Machine
end

section
/-! SUPPORT AND PROOFS. The family of 44_orfpx.md: the writes of `lf.madd.s`, its two ends, and the instructions of a unit
that is absent. -/

namespace Sys2Proof.Machine

open Sys2Proof.Safety

/-! ### The writes of `lf.madd.s` -/

/-- The flags stand at bits 11:3 of FPCSR and are added to what it held (10 R32, 44 R191). -/
theorem getLsbD_fpcsrWithFlags (fpcsr : Word) (flags : FpFlags) {n : Nat} (hn : n < 32) :
    (fpcsrWithFlags fpcsr flags).getLsbD n = (fpcsr.getLsbD n || (decide (3 ≤ n) && flags.getLsbD (n - 3))) := by
  by_cases hbelow : n < 3
  · simp [fpcsrWithFlags, hbelow]
  · have hflag : 3 ≤ n := by omega
    simp [fpcsrWithFlags, hn, hbelow, hflag]

/-- The machine after `lf.madd.s` has written its result and its flags, before control moves (44 R191, R193). -/
def State.writeFloat (s : State) (d : RegNum) (v : Word) (flags : FpFlags) : State :=
  { s.writeGpr d v with fpcsr := fpcsrWithFlags s.fpcsr flags }

/-- rD and the flags of FPCSR have been written; all else is as before, SR, the saved registers, `pc` and `ds` apart, which
the two ends of `lf.madd.s` treat differently (44 R191, 60 R224). -/
def WritesFloat (s t : State) (d : RegNum) (v : Word) (flags : FpFlags) : Prop :=
  Receives s t d v ∧ KeepsGprBut [d] s t ∧
  (∀ n, n < 32 → t.fpcsr.getLsbD n = (s.fpcsr.getLsbD n || (decide (3 ≤ n) && flags.getLsbD (n - 3)))) ∧
  KeepsMac s t ∧ KeepsPic s t ∧ KeepsMemory s t ∧ KeepsInputs s t ∧ t.draws = s.draws

section writeFloat

variable (s : State) (d : RegNum) (v : Word) (flags : FpFlags)

theorem writesFloat_writeFloat : WritesFloat s (s.writeFloat d v flags) d v flags :=
  ⟨readGpr_writeGpr_self s d v, fun _ hr => readGpr_writeGpr_ne s v (List.ne_of_not_mem_cons hr),
    fun _ => getLsbD_fpcsrWithFlags s.fpcsr flags, ⟨rfl, rfl⟩, ⟨rfl, rfl⟩, fun _ => rfl, ⟨rfl, rfl, rfl, rfl⟩, rfl⟩

theorem plainWrites_writeFloat : PlainWrites s (s.writeFloat d v flags) :=
  ⟨rfl, fun _ _ _ => rfl, flags, rfl⟩

end writeFloat

/-- Moving control keeps the writes. -/
theorem WritesFloat.moveControl {s u : State} {d : RegNum} {v : Word} {flags : FpFlags}
    (h : WritesFloat s u d v flags) (pc : Word) (ds : Option Word) :
    WritesFloat s { u with pc := pc, ds := ds } d v flags := h

/-- Trap entry keeps the writes (60 R224). -/
theorem WritesFloat.takeException {s u : State} {d : RegNum} {v : Word} {flags : FpFlags}
    (h : WritesFloat s u d v flags) (e : Exception) (ea : Option Word) :
    WritesFloat s (u.takeException e ea) d v flags := h

/-! ### The two ends of `lf.madd.s` -/

section present

variable {s : State} {d a b : RegNum} {v : Word} {flags : FpFlags}
  (hmadd : Config.fpMadd32 (s.readGpr a) (s.readGpr b) (s.readGpr d) (s.fpcsr.extractLsb' 1 2) = (v, flags))
  (hfpu : s.cfg.fpuPresent = true)

include hmadd hfpu

/-- With the FPU present the exception is taken exactly where FPEE is set and the operation sets a flag (44 R193). -/
theorem exec_lfMaddS_present :
    exec (.lfMaddS d a b) s =
      if s.fpcsr.getLsbD 0 = true ∧ flags ≠ 0#9 then
        .next ((s.writeFloat d v flags).takeException .floatingPoint none)
      else (s.writeFloat d v flags).advance := by
  simp only [exec, execLfMaddS, State.roundingMode, State.fpExceptionsEnabled, hmadd, hfpu, if_true, Bool.and_eq_true,
    bne_iff_ne]
  rfl

/-- Where no exception is due it goes on after its writes, and keeps SR and the saved registers (44 R191). -/
theorem lfMaddS_goesOn (hno : ¬(s.fpcsr.getLsbD 0 = true ∧ flags ≠ 0#9)) (hgo : CanGoOn s) :
    ∃ t, exec (.lfMaddS d a b) s = .next t ∧ WritesFloat s t d v flags ∧ t.sr = s.sr ∧ KeepsSaved s t ∧
      GoesOn s t := by
  rw [exec_lfMaddS_present hmadd hfpu, if_neg hno]
  exact ⟨_, advance_of_canGoOn (s := s.writeFloat d v flags) hgo, (writesFloat_writeFloat s d v flags).moveControl _ _,
    rfl, ⟨rfl, rfl, rfl⟩, rfl, rfl⟩

/-- Where the exception is due it is entered after the writes, from the SR and with the EEAR0 there were before
(44 R193, 60 R224, R226). -/
theorem lfMaddS_takesException (hfpee : s.fpcsr.getLsbD 0 = true) (hflag : flags ≠ 0#9) :
    ∃ t, exec (.lfMaddS d a b) s = .next t ∧ WritesFloat s t d v flags ∧ Entered .floatingPoint s t s.sr s.eear0 := by
  rw [exec_lfMaddS_present hmadd hfpu, if_pos ⟨hfpee, hflag⟩]
  exact ⟨_, rfl, (writesFloat_writeFloat s d v flags).takeException .floatingPoint none,
    (plainWrites_writeFloat s d v flags).entered .floatingPoint none⟩

end present

/-- Settles O49: with FPEE 0 no exception is due. -/
theorem lfMaddSCompletes : Obligations.LfMaddSCompletes := by
  intro s d a b v flags hmadd hfpu hgo hfpee
  have hno : ¬(s.fpcsr.getLsbD 0 = true ∧ flags ≠ 0#9) := fun h => Bool.eq_false_iff.mp hfpee h.1
  obtain ⟨t, hnext, ⟨hrd, hgpr, hfpcsr, hmac, hpic, hmem, hin, hdraws⟩, hsr, hsaved, hgoes⟩ :=
    lfMaddS_goesOn hmadd hfpu hno hgo
  exact ⟨t, hnext, hrd, hfpcsr, hgpr, hsr, hmac, hsaved, hpic, hmem, hin, hdraws, hgoes⟩

/-- Settles O50: with FPEE 1 the exception is due exactly on a flag. -/
theorem floatingPointExceptionOnFlag : Obligations.FloatingPointExceptionOnFlag := by
  intro s d a b v flags hmadd hfpu hfpee hends
  by_cases hflag : flags = 0#9
  · have hgo : CanGoOn s := hends.resolve_left (not_not.mpr hflag)
    obtain ⟨t, hnext, ⟨hrd, hgpr, hfpcsr, hmac, hpic, hmem, hin, hdraws⟩, hsr, hsaved, hgoes⟩ :=
      lfMaddS_goesOn hmadd hfpu (fun h => h.2 hflag) hgo
    exact ⟨t, hnext, hrd, hgpr, hmac, hpic, hmem, hin, hdraws, hfpcsr, fun h => absurd hflag h,
      fun _ => ⟨hgoes, hsr, hsaved⟩⟩
  · obtain ⟨t, hnext, ⟨hrd, hgpr, hfpcsr, hmac, hpic, hmem, hin, hdraws⟩, hentered⟩ :=
      lfMaddS_takesException hmadd hfpu hfpee hflag
    exact ⟨t, hnext, hrd, hgpr, hmac, hpic, hmem, hin, hdraws, hfpcsr, fun _ => hentered, fun h => absurd h hflag⟩

/-! ### The instructions that are refused whatever their operands -/

/-- Settles O51: the form has no operation, so its meaning is the refusal. -/
theorem doubleMultiplyAddRefused : Obligations.DoubleMultiplyAddRefused := fun _ _ _ _ => rfl

theorem exec_maci_absent {s : State} (hmac : s.cfg.macPresent = false) (a : RegNum) (imm : Imm16) :
    exec (.maci a imm) s = .refused .macAbsent :=
  if_neg (Bool.eq_false_iff.mp hmac)

theorem exec_lfMaddS_absent {s : State} (hfpu : s.cfg.fpuPresent = false) (d a b : RegNum) :
    exec (.lfMaddS d a b) s = .refused .fpuAbsent :=
  if_neg (Bool.eq_false_iff.mp hfpu)

/-- Where `companion_set` is false the guard of 45 refuses, whatever stands behind it (45 R200). -/
theorem ifCompanion_of_not_admitted {s : State} (hset : s.cfg.companionSet = false) (k : Result) :
    s.ifCompanion k = .refused .companionNotAdmitted :=
  if_neg (Bool.eq_false_iff.mp hset)

/-- Settles O59: `l.maci` and `lf.madd.s` test their unit first, and the five companions stand behind one guard. -/
theorem absentUnitRefused : Obligations.AbsentUnitRefused := by
  intro s
  refine ⟨fun hmac => exec_maci_absent hmac, fun hfpu => exec_lfMaddS_absent hfpu, fun hset => ?_⟩
  have hguard := ifCompanion_of_not_admitted hset
  exact ⟨fun _ _ _ => ⟨hguard _, hguard _, hguard _⟩, fun _ _ _ => hguard _, hguard _⟩

end Sys2Proof.Machine
end

section
/-! SUPPORT AND PROOFS. The family of 45_companion.md: the registers read and written by number, the logical immediates, the
return from an exception, and user mode. -/

namespace Sys2Proof.Machine

open Sys2Proof.Safety

/-! ### The read of a special-purpose register -/

/-- One bit of what a read of SR returns (45 R206). -/
theorem getLsbD_srRead (sr : Word) {n : Nat} (hn : n < 32) :
    (srRead sr).getLsbD n = if n = 15 then true else if 17 ≤ n ∧ n ≤ 27 then false else sr.getLsbD n := by
  interval_cases n <;> simp [srRead]

theorem sprReads_readSpr (s : State) (r : Spr) : SprReads s r (s.readSpr r) := by
  cases r with
  | sr => exact fun _ => getLsbD_srRead s.sr
  | fpcsr | epcr0 | eear0 | esr0 | maclo | machi | picmr | picsr => rfl

/-- Settles O52: the number addresses the register, and rD receives what its read returns. -/
theorem mfsprCompletes : Obligations.MfsprCompletes := by
  intro s d a imm r hnum hc hsm hheld hgo
  obtain ⟨t, hnext, hwrites⟩ := writeGpr_advance d (s.readSpr r) hgo
  rw [exec_mfspr_supervisor hc hsm, hnum, sprAt_sprNumberOf hheld]
  exact ⟨t, _, hnext, sprReads_readSpr s r, hwrites⟩

/-! ### The write of a special-purpose register -/

/-- The write changes the register it names and no other (45 R206). -/
theorem heldSpr_setSpr (s : State) (r q : Spr) (w : Word) :
    heldSpr (s.setSpr r w) q = if q = r then w else heldSpr s q := by
  cases r <;> cases q <;> rfl

theorem heldSpr_moveControl (s : State) (pc : Word) (ds : Option Word) (q : Spr) :
    heldSpr { s with pc := pc, ds := ds } q = heldSpr s q := by
  cases q <;> rfl

/-- An instruction that writes one special-purpose register and goes on. -/
theorem setSpr_advance {s : State} (r : Spr) (w : Word) (hgo : CanGoOn s) :
    ∃ t, (s.setSpr r w).advance = .next t ∧ heldSpr t r = w ∧ (∀ q, q ≠ r → heldSpr t q = heldSpr s q) ∧
      KeepsGprBut [] s t ∧ KeepsMemory s t ∧ KeepsInputs s t ∧ t.draws = s.draws ∧ GoesOn s t := by
  have hgo' : CanGoOn (s.setSpr r w) := by simpa [CanGoOn] using hgo
  refine ⟨_, advance_of_canGoOn hgo', ?_, fun q hq => ?_, fun q _ => s.setSpr_readGpr r w q, ?_, ?_, ?_, rfl, ?_⟩
  · rw [heldSpr_moveControl, heldSpr_setSpr, if_pos rfl]
  · rw [heldSpr_moveControl, heldSpr_setSpr, if_neg hq]
  · simp [KeepsMemory]
  · simp [KeepsInputs]
  · simp
  · simp

/-- One bit of what a write leaves in FPCSR: bits 11:0 are the value's (10 R32, 45 R206). -/
theorem getLsbD_and_fpcsr_mask (v : Word) {n : Nat} (hn : n < 32) :
    (v &&& 0x00000FFF#32).getLsbD n = (decide (n < 12) && v.getLsbD n) := by
  interval_cases n <;> simp

/-- One bit of what a write leaves in PICMR: bits 1:0 stay 1 (10 R35). -/
theorem getLsbD_picmrWritten (v : Word) {n : Nat} (hn : n < 32) :
    (picmrWritten v).getLsbD n = (decide (n < 2) || v.getLsbD n) := by
  interval_cases n <;> simp [picmrWritten]

/-- The latch lets in a line that is high and, where the mask stands before the latch, enabled (60 R242). -/
theorem getLsbD_latchIn (s : State) (n : Nat) : s.latchIn.getLsbD n = LatchedIn s n := by
  cases hmask : s.cfg.picMaskBeforeLatch <;> simp [State.latchIn, State.latchOf, LatchedIn, hmask]

/-- One bit of what a write leaves in PICSR: written 1 it is 1, written 0 it is its latch input (60 R243). -/
theorem getLsbD_picsrWritten (s : State) (v : Word) {n : Nat} (hn : n < 32) :
    (s.picsrWritten v).getLsbD n = (v.getLsbD n || LatchedIn s n) := by
  rw [← getLsbD_latchIn]
  simp only [State.picsrWritten, BitVec.getLsbD_or, BitVec.getLsbD_and, BitVec.getLsbD_not, hn, decide_true,
    Bool.true_and]
  cases v.getLsbD n <;> simp

/-- A register that holds what a write leaves there has been written bit by bit as 45 R206 says. -/
theorem sprHasWritten_of_heldSpr {s t : State} {r : Spr} {v : Word} (h : heldSpr t r = s.sprWritten r v) :
    SprHasWritten s t r v := by
  cases r with
  | sr => exact fun n hn => (congrArg (·.getLsbD n) h).trans (getLsbD_srWritten v hn)
  | fpcsr => exact fun n hn => (congrArg (·.getLsbD n) h).trans (getLsbD_and_fpcsr_mask v hn)
  | picmr => exact fun n hn => (congrArg (·.getLsbD n) h).trans (getLsbD_picmrWritten v hn)
  | picsr => exact fun n hn => (congrArg (·.getLsbD n) h).trans (getLsbD_picsrWritten s v hn)
  | epcr0 | eear0 | esr0 | maclo | machi => exact h

/-- The listed form of the test that `picsr_write_one` makes for a 1 to a clear bit, here met by none (60 R243). -/
theorem and_not_eq_zero_of_getLsbD {v w : Word} (h : ∀ n, n < 32 → v.getLsbD n = true → w.getLsbD n = true) :
    v &&& ~~~w = 0#32 := by
  refine BitVec.eq_of_getLsbD_eq fun n hn => ?_
  cases hv : v.getLsbD n
  · simp [hv]
  · simp [h n hn hv]

/-- A write that SR and PICSR admit has its effect (10 R28, 60 R243). -/
theorem writeSpr_of_sprWritable {s : State} {r : Spr} {v : Word} (h : SprWritable s r v) :
    s.writeSpr r v = .ok (s.setSpr r (s.sprWritten r v)) := by
  obtain ⟨hsr, hpicsr⟩ := h
  have hsr' : ¬(r = .sr ∧ v &&& srMustStayZero ≠ 0#32) := fun ⟨hr, hbits⟩ => hbits ((srWritable_iff v).mp (hsr hr))
  have hpicsr' : ¬(r = .picsr ∧ s.cfg.picsrWriteOne = .refuse ∧ v &&& ~~~s.picsr ≠ 0#32) := by
    rintro ⟨hr, hrefuse, hbits⟩
    rcases hpicsr hr with hset | hclear
    · cases hset.symm.trans hrefuse
    · exact hbits (and_not_eq_zero_of_getLsbD hclear)
  rw [State.writeSpr, if_neg hsr', if_neg hpicsr']

/-- Settles O53: the number addresses the register, its write is admitted, and no other register changes. -/
theorem mtsprCompletes : Obligations.MtsprCompletes := by
  rintro s a b imm r v hnum rfl hc hsm hheld hwritable hgo
  obtain ⟨t, hnext, hwritten, hframe⟩ := setSpr_advance r (s.sprWritten r (s.readGpr b)) hgo
  rw [exec_mtspr_supervisor hc hsm, hnum, sprAt_sprNumberOf hheld]
  simp only [orRefuse, writeSpr_of_sprWritable hwritable]
  exact ⟨t, hnext, sprHasWritten_of_heldSpr hwritten, hframe⟩

/-! ### The logical immediates -/

/-- Where `companion_set` admits the instructions of 45 the guard lets them through (45 R200). -/
theorem ifCompanion_of_admitted {s : State} (hset : s.cfg.companionSet = true) (k : Result) : s.ifCompanion k = k :=
  if_pos hset

/-- Settles O54: behind the guard both write one register. -/
theorem logicalImmediatesComplete : Obligations.LogicalImmediatesComplete := by
  rintro s d a imm x rfl hset hgo
  obtain ⟨t, handi, handiWrites⟩ := writeGpr_advance d (s.readGpr a &&& imm.setWidth 32) hgo
  obtain ⟨u, hori, horiWrites⟩ := writeGpr_advance d (s.readGpr a ||| imm.setWidth 32) hgo
  exact ⟨⟨t, (ifCompanion_of_admitted hset _).trans handi, handiWrites⟩,
    ⟨u, (ifCompanion_of_admitted hset _).trans hori, horiWrites⟩⟩

/-! ### The return from an exception -/

/-- Settles O55: the return writes SR, `pc` and `ds` only. -/
theorem rfeCompletes : Obligations.RfeCompletes := by
  intro s hc hsm hds hesr hepcr
  have haligned : s.epcr0 &&& 3#32 = 0#32 := beq_iff_eq.mp ((wordAligned_iff_extract s.epcr0).mpr hepcr)
  have hreturn := (returnFromException_next_iff s _).mpr ⟨(srWritable_iff s.esr0).mp hesr, haligned, rfl⟩
  obtain ⟨hsprs, hmem, hin⟩ := keeps_of_core_writes s s.gpr s.epcr0 none (srWritten s.esr0) s.draws
  exact ⟨_, (exec_rfe_supervisor hc hsm hds).trans hreturn, rfl, rfl, fun _ => getLsbD_srWritten s.esr0,
    fun _ _ => rfl, hsprs, hmem, hin, rfl⟩

/-! ### User mode -/

/-- In user mode the guard of a privileged instruction refuses, whatever stands behind it (45 R207). -/
theorem ifSupervisor_of_user {s : State} (hsm : s.flag .SM = false) (k : Result) :
    s.ifSupervisor k = .refused .userMode :=
  if_neg (Bool.eq_false_iff.mp hsm)

/-- Settles O57: the three stand behind the guard of privilege, which they reach where `companion_set` admits them. -/
theorem privilegedRefusedInUserMode : Obligations.PrivilegedRefusedInUserMode := by
  intro s hsm hset
  have hguard : ∀ k, s.ifCompanion (s.ifSupervisor k) = .refused .userMode := fun k =>
    (ifCompanion_of_admitted hset _).trans (ifSupervisor_of_user hsm k)
  exact ⟨fun _ _ _ => hguard _, fun _ _ _ => hguard _, hguard _⟩

end Sys2Proof.Machine
end

section
/-! SUPPORT AND PROOFS. The family of 60_exceptions.md: the sampling and the request of an interrupt, trap entry and the
return from it, what a step does to PICSR and to the mode, and what user mode can change and read. -/

namespace Sys2Proof.Machine

open Sys2Proof.Safety

/-! ### The sampling and the request -/

theorem ne_zero_iff_getLsbD (w : Word) : w ≠ 0#32 ↔ ∃ n, n < 32 ∧ w.getLsbD n = true := by
  constructor
  · intro hne
    by_contra hnone
    push Not at hnone
    exact hne (BitVec.eq_of_getLsbD_eq fun n hn => by simpa using hnone n hn)
  · rintro ⟨n, -, hset⟩ rfl
    simp at hset

/-- Where there is a PIC one bit of PICSR after the sampling is set if it was, or if the latch lets its line in
(60 R242). -/
theorem getLsbD_sample_picsr {s : State} (hpic : s.cfg.picPresent = true) (n : Nat) :
    s.sample.picsr.getLsbD n = (s.picsr.getLsbD n || LatchedIn s.sample n) := by
  rw [State.sample_picsr, if_pos hpic, BitVec.getLsbD_or, ← getLsbD_latchIn]
  rfl

/-- The sampling clears no bit of PICSR (60 R242). -/
theorem sample_keeps_latched {s : State} {n : Nat} (h : s.picsr.getLsbD n = true) :
    s.sample.picsr.getLsbD n = true := by
  cases hpic : s.cfg.picPresent with
  | true => rw [getLsbD_sample_picsr hpic, h, Bool.true_or]
  | false => rwa [State.sample_picsr, if_neg (by simp [hpic])]

/-- Settles O8: the bits of PICSR by its rule, the level by the two forms of the input, the rest by definition. -/
theorem samplingLatchesLines : Obligations.SamplingLatchesLines := by
  intro s n _
  refine ⟨fun hpic => getLsbD_sample_picsr hpic n, fun hpic => ?_, fun level rest hin => ?_, fun hin => ?_, rfl⟩
  · rw [State.sample_picsr, if_neg (by simp [hpic])]
  · simp [State.nextLines, hin]
  · simp [State.nextLines, hin]

/-- A request stands where a bit is latched and, with the mask after the latch, unmasked (60 R245). -/
theorem picRequest_iff (s : State) :
    s.picRequest = true ↔
      ∃ n, n < 32 ∧ s.picsr.getLsbD n = true ∧ (s.cfg.picMaskBeforeLatch = false → s.picmr.getLsbD n = true) := by
  cases hmask : s.cfg.picMaskBeforeLatch with
  | true => simpa [State.picRequest, hmask] using ne_zero_iff_getLsbD s.picsr
  | false => simpa [State.picRequest, hmask] using ne_zero_iff_getLsbD (s.picsr &&& s.picmr)

/-- Settles O9, from the rule of the request. -/
theorem interruptTakenExactlyWhen : Obligations.InterruptTakenExactlyWhen := by
  intro s
  rw [State.interruptTaken, Bool.and_eq_true, Bool.and_eq_true, picRequest_iff, and_comm (a := s.flag .IEE = true),
    and_assoc]

/-! ### Trap entry and the return from it -/

/-- In a delay slot EPCR0 records the jump, whatever the exception (42 R145). -/
theorem exceptionPc_in_slot {s : State} (hds : s.ds ≠ none) (e : Exception) : s.exceptionPc e = s.pc - 4 :=
  if_pos (Option.isSome_iff_ne_none.mpr hds)

theorem exceptionPc_outside_slot {s : State} (hds : s.ds = none) (e : Exception) :
    s.exceptionPc e = if e = .floatingPoint ∧ s.cfg.fpEpcNext = true then s.pc + 4 else s.pc := by
  cases e <;> simp [State.exceptionPc, State.inDelaySlot, hds]

/-- The Interrupt exception records the instruction that comes next, or the jump whose delay slot it is (60 R226). -/
theorem exceptionPc_interrupt (s : State) :
    s.exceptionPc .interrupt = if s.ds = none then s.pc else s.pc - 4 := by
  by_cases hds : s.ds = none
  · simp [exceptionPc_outside_slot hds, hds]
  · rw [exceptionPc_in_slot hds, if_neg hds]

/-- Settles O26: the two places of EPCR0, and the default offsets over the base that EPH selects. -/
theorem exceptionAddresses : Obligations.ExceptionAddresses := by
  refine ⟨fun s e hds => exceptionPc_in_slot hds e, fun s e hds he => ?_, fun s hds => ?_, ?_⟩
  · rw [exceptionPc_outside_slot hds, if_neg fun h => he h.1]
  · simp [exceptionPc_outside_slot hds]
  · rintro sr base rfl
    exact ⟨rfl, rfl, rfl, rfl, rfl⟩

theorem step_of_interruptTaken {s : State} (h : s.sample.interruptTaken = true) :
    step s = .next (s.sample.takeException .interrupt none) :=
  if_pos h

/-- Settles O10: the step is trap entry from the state after the sampling. -/
theorem stepTakesInterrupt : Obligations.StepTakesInterrupt := by
  intro s h
  exact ⟨_, step_of_interruptTaken h, entered_takeException s.sample .interrupt none,
    entryKeeps_takeException s.sample .interrupt none, exceptionPc_interrupt s.sample, rfl⟩

/-- Trap entry leaves supervisor mode with interrupts off (60 R224). -/
theorem takeException_mode (s : State) (e : Exception) (ea : Option Word) :
    (s.takeException e ea).flag .SM = true ∧ (s.takeException e ea).flag .IEE = false := by
  obtain ⟨-, -, -, hsm, hiee, -⟩ := entered_takeException s e ea
  exact ⟨hsm, hiee⟩

/-- A legal SR has no "must stay 0" bit set (10 R28). -/
theorem and_mustStayZero_of_srLegal {sr : Word} (h : SrLegal sr) : sr &&& srMustStayZero = 0#32 := by
  have hfixed : ∀ n ∈ mustStayZeroBits, n < 32 ∧ (n = 1 ∨ 5 ≤ n ∧ n ≤ 8 ∨ 15 ≤ n) ∧ n ≠ 15 := by decide
  rw [srLegal_iff] at h
  refine (srWritable_iff sr).mp fun n hn => ?_
  obtain ⟨hlt, hbit, hfo⟩ := hfixed n hn
  rw [h n hlt hbit, decide_eq_false hfo]

/-- A legal SR written to SR leaves itself (45 R206). -/
theorem srWritten_of_srLegal {sr : Word} (h : SrLegal sr) : srWritten sr = sr := by
  rw [srLegal_iff] at h
  refine BitVec.eq_of_getLsbD_eq fun n hn => ?_
  rw [getLsbD_srWritten sr hn]
  split
  · rfl
  · rw [h n hn (by omega)]

/-- Where control is aligned, so is the address that the Interrupt exception records (10 R24). -/
theorem ControlAligned.interruptPc {s : State} (h : ControlAligned s) :
    wordAligned (s.exceptionPc .interrupt) = true := by
  obtain ⟨hpc, -⟩ := h
  rw [exceptionPc_interrupt]
  split
  · exact hpc
  · exact wordAligned_sub_four hpc

/-- Settles O27: trap entry saves a legal SR and an aligned address, which the return admits and restores. -/
theorem trapThenReturnRestores : Obligations.TrapThenReturnRestores := by
  intro s hinv hset
  obtain ⟨⟨-, -, hsr, -, -⟩, hctl⟩ := (inv_iff s).mp hinv
  obtain ⟨hsm, -⟩ := takeException_mode s .interrupt none
  have hreturn := (returnFromException_next_iff (s.takeException .interrupt none) _).mpr
    ⟨and_mustStayZero_of_srLegal hsr, beq_iff_eq.mp hctl.interruptPc, rfl⟩
  have hexec := exec_rfe_supervisor (s := s.takeException .interrupt none) hset hsm rfl
  exact ⟨_, hexec.trans hreturn, srWritten_of_srLegal hsr, exceptionPc_interrupt s, rfl, fun _ _ => rfl, ⟨rfl, rfl⟩,
    rfl, ⟨rfl, rfl⟩, rfl, fun _ => rfl, ⟨rfl, rfl, rfl, rfl⟩, rfl⟩

/-! ### What a step does to PICSR and to the mode -/

theorem decode_of_decodeWord {s : State} {w : Word} {i : Instr} (h : s.decodeWord w = .ok i) :
    decode s.cfg.reservedBits w = .ok i := by
  rw [State.decodeWord] at h
  split at h
  · rename_i j hj
    split at h
    · cases h
      exact hj
    · cases h
  · cases h

/-- A step that answers a next state entered the Interrupt exception, or executed the instruction of the word it fetched
in one of the five shapes (10 R26). -/
theorem step_next_shape {s t : State} (h : step s = .next t) :
    t = s.sample.takeException .interrupt none ∨
    ∃ w i, s.sample.fetch = .ok w ∧ decode s.cfg.reservedBits w = .ok i ∧ ExecShape i s.sample t := by
  rcases step_next h with ⟨-, ht⟩ | ⟨-, -, w, i, hw, hd, hexec⟩
  · exact .inl ht
  · exact .inr ⟨w, i, hw, decode_of_decodeWord hd, exec_next hexec⟩

/-- Plain writes keep every field of SR but CY and OV. -/
theorem PlainWrites.flag_eq {s u : State} (h : PlainWrites s u) {f : SrField} (hcy : f ≠ .CY) (hov : f ≠ .OV) :
    u.flag f = s.flag f := by
  obtain ⟨-, hsr, -⟩ := h
  exact hsr f.pos (fun e => hcy (SrField.pos_inj e)) (fun e => hov (SrField.pos_inj e))

theorem PlainWrites.flag_SM {s u : State} (h : PlainWrites s u) : u.flag .SM = s.flag .SM :=
  h.flag_eq (by decide) (by decide)

theorem PlainWrites.keepsPic {s u : State} (h : PlainWrites s u) : KeepsPic s u := by
  obtain ⟨hu, -, -⟩ := h
  rw [hu]
  exact ⟨rfl, rfl⟩

/-- What an admitted write by number does to a register: it is the one addressed and holds what the write leaves there,
or it is as before (45 R202, R206). -/
theorem heldSpr_of_writeSpr {s u : State} {n v : Word} {r : Spr} (hn : s.sprAt n = .ok r)
    (hu : s.writeSpr r v = .ok u) (q : Spr) :
    (n = sprNumberOf q ∧ heldSpr u q = s.sprWritten q v) ∨ heldSpr u q = heldSpr s q := by
  obtain ⟨-, hnum, -⟩ := (sprAt_ok_iff s n r).mp hn
  obtain ⟨rfl, -, -⟩ := writeSpr_ok hu
  rw [heldSpr_setSpr]
  by_cases hq : q = r
  · subst hq
    exact .inl ⟨sprOfNumber_eq_some hnum, if_pos rfl⟩
  · exact .inr (if_neg hq)

/-- An instruction writes PICSR only as `l.mtspr` to its number (60 R243). -/
theorem picsr_of_execShape {i : Instr} {s t : State} (h : ExecShape i s t) :
    t.picsr = s.picsr ∨
    ∃ a b imm, i = .mtspr a b imm ∧ s.sprNumber a imm = 0x4802#32 ∧ t.picsr = s.picsrWritten (s.readGpr b) := by
  rcases h with ⟨u, hu, -, rfl⟩ | ⟨u, target, hu, -, -, -, rfl⟩ | ⟨u, e, ea, hu, rfl⟩ | ⟨-, -, -, -, -, rfl⟩ |
    ⟨a, b, imm, r, u, hi, -, hn, hu, -, rfl⟩
  case inl | inr.inl | inr.inr.inl =>
    obtain ⟨-, hpicsr⟩ := hu.keepsPic
    exact .inl hpicsr
  case inr.inr.inr.inl => exact .inl rfl
  case inr.inr.inr.inr =>
    rcases heldSpr_of_writeSpr hn hu .picsr with ⟨hnum, hwritten⟩ | hkept
    · exact .inr ⟨a, b, imm, hi, hnum, hwritten⟩
    · exact .inl hkept

/-- Settles O20: of all that a step does only a write to PICSR can clear a bit, and of its bits only one written 0. -/
theorem latchedBitStays : Obligations.LatchedBitStays := by
  intro s t n h hset
  have hlatched := sample_keeps_latched hset
  rcases step_next_shape h with rfl | ⟨w, i, hw, hd, hshape⟩
  · exact .inl hlatched
  · rcases picsr_of_execShape hshape with hkept | ⟨a, b, imm, rfl, hnum, hwritten⟩
    · exact .inl (hkept ▸ hlatched)
    · cases hb : (s.readGpr b).getLsbD n with
      | false => exact .inr ⟨w, a, b, imm, hw, hd, hnum, hb⟩
      | true =>
        left
        rw [hwritten, getLsbD_picsrWritten _ _ (BitVec.lt_of_getLsbD hset), State.sample_readGpr, hb, Bool.true_or]

/-- In user mode two ends of an instruction are left: after plain writes control moved, or an exception was entered
(45 R207). -/
theorem execShape_user {i : Instr} {s t : State} (h : ExecShape i s t) (hsm : s.flag .SM = false) :
    ∃ u, PlainWrites s u ∧ ((∃ pc ds, t = { u with pc := pc, ds := ds }) ∨ ∃ e ea, t = u.takeException e ea) := by
  rcases h with ⟨u, hu, -, ht⟩ | ⟨u, target, hu, -, -, -, ht⟩ | ⟨u, e, ea, hu, ht⟩ | ⟨-, hsup, -⟩ |
    ⟨-, -, -, -, -, -, hsup, -⟩
  case inl | inr.inl => exact ⟨u, hu, .inl ⟨_, _, ht⟩⟩
  case inr.inr.inl => exact ⟨u, hu, .inr ⟨e, ea, ht⟩⟩
  case inr.inr.inr.inl | inr.inr.inr.inr => exact absurd hsup (Bool.eq_false_iff.mp hsm)

/-- Settles O21: plain writes keep the mode, so the step entered an exception from a state still in user mode. -/
theorem supervisorEnteredOnlyByException : Obligations.SupervisorEnteredOnlyByException := by
  intro s t h hsm htsm
  have hentry : ∃ u e ea, PlainWrites s.sample u ∧ t = u.takeException e ea := by
    rcases step_next_shape h with ht | ⟨w, i, -, -, hshape⟩
    · exact ⟨_, _, _, .refl _, ht⟩
    · obtain ⟨u, hu, ⟨pc, ds, rfl⟩ | ⟨e, ea, ht⟩⟩ := execShape_user hshape hsm
      · exact absurd (htsm.symm.trans (hu.flag_SM.trans hsm)) (by decide)
      · exact ⟨u, e, ea, hu, ht⟩
  obtain ⟨u, e, ea, hu, rfl⟩ := hentry
  obtain ⟨-, hiee⟩ := takeException_mode u e ea
  obtain ⟨-, hcfg⟩ := hu.sameMemCfg
  refine ⟨hu.flag_SM.trans hsm, hiee, rfl, e, ?_⟩
  rw [State.takeException_pc, hcfg]
  rfl

/-- A write to SR leaves the mode that the value says (45 R205, R206). -/
theorem getSr_SM_srWritten (v : Word) : getSr (srWritten v) .SM = getSr v .SM :=
  getLsbD_srWritten v (by decide)

/-- An instruction that clears SM is `l.rfe` or `l.mtspr` to SR (60 R235). -/
theorem clears_SM_of_execShape {i : Instr} {s t : State} (h : ExecShape i s t) (hsm : s.flag .SM = true)
    (htsm : t.flag .SM = false) :
    (i = .rfe ∧ getSr s.esr0 .SM = false) ∨
    ∃ a b imm, i = .mtspr a b imm ∧ s.sprNumber a imm = 0x0011#32 ∧ getSr (s.readGpr b) .SM = false := by
  rcases h with ⟨u, hu, -, rfl⟩ | ⟨u, target, hu, -, -, -, rfl⟩ | ⟨u, e, ea, hu, rfl⟩ | ⟨hi, -, -, -, -, rfl⟩ |
    ⟨a, b, imm, r, u, hi, -, hn, hu, -, rfl⟩
  case inl | inr.inl => exact absurd (htsm.symm.trans (hu.flag_SM.trans hsm)) (by decide)
  case inr.inr.inl =>
    obtain ⟨hentry, -⟩ := takeException_mode u e ea
    exact absurd (htsm.symm.trans hentry) (by decide)
  case inr.inr.inr.inl => exact .inl ⟨hi, (getSr_SM_srWritten s.esr0).symm.trans htsm⟩
  case inr.inr.inr.inr =>
    have husm : getSr u.sr .SM = false := htsm
    rcases heldSpr_of_writeSpr hn hu .sr with ⟨hnum, hwritten⟩ | hkept
    · have hsr : u.sr = srWritten (s.readGpr b) := hwritten
      rw [hsr, getSr_SM_srWritten] at husm
      exact .inr ⟨a, b, imm, hi, hnum, husm⟩
    · have hsr : u.sr = s.sr := hkept
      rw [hsr] at husm
      exact absurd (husm.symm.trans hsm) (by decide)

/-- Settles O22: trap entry sets SM, and of the instructions only these two clear it. -/
theorem userModeEnteredOnlyByRfeOrMtspr : Obligations.UserModeEnteredOnlyByRfeOrMtspr := by
  intro s t h hsm htsm
  rcases step_next_shape h with rfl | ⟨w, i, hw, hd, hshape⟩
  · obtain ⟨hentry, -⟩ := takeException_mode s.sample .interrupt none
    exact absurd (htsm.symm.trans hentry) (by decide)
  · refine ⟨w, hw, ?_⟩
    rcases clears_SM_of_execShape hshape hsm htsm with ⟨rfl, hesr⟩ | ⟨a, b, imm, rfl, hnum, hclear⟩
    · exact .inl ⟨hd, hesr⟩
    · exact .inr ⟨a, b, imm, hd, hnum, hclear⟩

/-! ### What user mode can change -/

/-- The accumulator and FPCSR are as before. -/
def KeepsUnits (s t : State) : Prop := KeepsMac s t ∧ KeepsFpcsr s t

theorem KeepsUnits.of_arithmetic {i : Instr} {d : RegNum} {s t : State} (hi : WritesFlagsInto s i d)
    (h : exec i s = .next t) : KeepsUnits s t := by
  obtain ⟨-, hmac, hfp, -⟩ := arithmeticFrame_of_exec hi h
  exact ⟨hmac, hfp⟩

theorem KeepsUnits.of_writesOnly {s t : State} {d : RegNum} {v : Word} (h : WritesOnly s t d v) : KeepsUnits s t := by
  obtain ⟨-, -, -, ⟨hmac, -, hfp, -⟩, -⟩ := h
  exact ⟨hmac, hfp⟩

theorem KeepsUnits.of_armDelaySlot {s t : State} {target : Word} (h : s.armDelaySlot target = .next t) :
    KeepsUnits s t := by
  obtain ⟨-, rfl⟩ := (armDelaySlot_next_iff _ _ _).mp h
  exact ⟨⟨rfl, rfl⟩, rfl⟩

theorem KeepsUnits.of_raiseAlign {s t : State} {target : Word} (h : s.raiseAlign target = .next t) :
    KeepsUnits s t := by
  obtain ⟨u, -, hu, -, -, -, hmac, hfp, -⟩ := raiseAlign_entered s target
  cases h.symm.trans hu
  exact ⟨hmac, hfp⟩

/-- A jump that answers a next state armed its delay slot or took an exception; neither touches the units (42 R140,
R143). -/
theorem KeepsUnits.of_jump {i : Instr} {b : RegNum} {s t : State} (hi : i = .jr b ∨ i = .jalr b)
    (h : exec i s = .next t) : KeepsUnits s t := by
  rcases hi with rfl | rfl <;> obtain ⟨-, h⟩ := (outsideDelaySlot_next_iff _ _ _).mp h <;> split at h
  · exact .of_armDelaySlot h
  · exact .of_raiseAlign h
  · cases h
    exact ⟨⟨rfl, rfl⟩, rfl⟩
  · split at h
    · have hkeeps : KeepsUnits (s.writeGpr linkReg (s.pc + 8)) t := .of_armDelaySlot h
      exact hkeeps
    · exact .of_raiseAlign h

/-- `lf.madd.s` leaves the accumulator (44 R191). -/
theorem keepsMac_of_exec_lfMaddS {d a b : RegNum} {s t : State} (h : exec (.lfMaddS d a b) s = .next t) :
    KeepsMac s t := by
  cases hfpu : s.cfg.fpuPresent with
  | false => cases (exec_lfMaddS_absent hfpu d a b).symm.trans h
  | true =>
    rw [exec_lfMaddS_present rfl hfpu] at h
    split at h
    · cases h
      exact ⟨rfl, rfl⟩
    · obtain ⟨-, rfl⟩ := (advance_next_iff _ _).mp h
      exact ⟨rfl, rfl⟩

/-- In user mode the guards of a privileged instruction let no next state through (45 R207). -/
theorem privileged_ne_next {s : State} (hsm : s.flag .SM = false) (k : Result) (t : State) :
    s.ifCompanion (s.ifSupervisor k) ≠ .next t := by
  intro h
  obtain ⟨-, h⟩ := (ifCompanion_next_iff _ _ _).mp h
  obtain ⟨hsup, -⟩ := (ifSupervisor_next_iff _ _ _).mp h
  exact absurd hsup (Bool.eq_false_iff.mp hsm)

/-- In user mode the accumulator is `l.maci`'s alone to change, and FPCSR `lf.madd.s`'s (10 R32, R33). -/
theorem keepsUnits_of_exec_user {i : Instr} {s t : State} (h : exec i s = .next t) (hsm : s.flag .SM = false) :
    (KeepsMac s t ∧ ∃ d a b, i = .lfMaddS d a b) ∨ (KeepsFpcsr s t ∧ ∃ a imm, i = .maci a imm) ∨ KeepsUnits s t := by
  cases i with
  | lfMaddS d a b => exact .inl ⟨keepsMac_of_exec_lfMaddS h, d, a, b, rfl⟩
  | maci a imm =>
    obtain ⟨acc, rfl⟩ := exec_maci_next h
    exact .inr (.inl ⟨rfl, a, imm, rfl⟩)
  | add | addc | addi | addic => exact .inr (.inr (.of_arithmetic (.inl rfl) h))
  | mul | muli => exact .inr (.inr (.of_arithmetic (.inr (.inl rfl)) h))
  | div | divu => exact .inr (.inr (.of_arithmetic (.inr (.inr (.inl rfl))) h))
  | mulu d a b => exact .inr (.inr (.of_arithmetic (.inr (.inr (.inr ⟨a, b, rfl⟩))) h))
  | ff1 | fl1 | xori => exact .inr (.inr (.of_writesOnly (writeGpr_advance_next h)))
  | andi | ori => exact .inr (.inr (.of_writesOnly (writeGpr_advance_next ((ifCompanion_next_iff _ _ _).mp h).2)))
  | jr b => exact .inr (.inr (.of_jump (.inl rfl) h))
  | jalr b => exact .inr (.inr (.of_jump (.inr rfl) h))
  | lfMaddD => cases h
  | rfe | mfspr | mtspr => exact absurd h (privileged_ne_next hsm _ t)

/-- Of FPCSR plain writes change the flags, bits 11:3, only (10 R32, 44 R191). -/
theorem PlainWrites.fpcsr_outside_flags {s u : State} (h : PlainWrites s u) {n : Nat} (hn : n < 3 ∨ 12 ≤ n) :
    u.fpcsr.getLsbD n = s.fpcsr.getLsbD n := by
  obtain ⟨-, -, flags, hfpcsr⟩ := h
  by_cases hlt : n < 32
  · have hnone : (decide (3 ≤ n) && flags.getLsbD (n - 3)) = false := by
      rcases hn with hn | hn
      · rw [decide_eq_false (by omega), Bool.false_and]
      · rw [BitVec.getLsbD_of_ge flags _ (by omega), Bool.and_false]
    rw [hfpcsr, getLsbD_fpcsrWithFlags _ _ hlt, hnone, Bool.or_false]
  · rw [BitVec.getLsbD_of_ge _ _ (by omega), BitVec.getLsbD_of_ge _ _ (by omega)]

theorem PlainWrites.keepsSaved {s u : State} (h : PlainWrites s u) : KeepsSaved s u := by
  obtain ⟨hu, -, -⟩ := h
  rw [hu]
  exact ⟨rfl, rfl, rfl⟩

theorem PlainWrites.keepsSrBut {s u : State} (h : PlainWrites s u) : KeepsSrBut [.CY, .OV] s u := by
  obtain ⟨-, hsr, -⟩ := h
  intro n hn
  obtain ⟨hcy, hov⟩ : n ≠ SrField.CY.pos ∧ n ≠ SrField.OV.pos := by simpa using hn
  exact hsr n hcy hov

/-- Settles O23: the accumulator and FPCSR by the instruction, the other registers by the two ends that user mode
leaves. -/
theorem userModeKeepsSupervisorState : Obligations.UserModeKeepsSupervisorState := by
  intro i s t h hsm
  have hmac : KeepsMac s t ∨ ∃ a imm, i = .maci a imm := by
    rcases keepsUnits_of_exec_user h hsm with ⟨hmac, -⟩ | ⟨-, hi⟩ | ⟨hmac, -⟩
    exacts [.inl hmac, .inr hi, .inl hmac]
  have hfp : KeepsFpcsr s t ∨ ∃ d a b, i = .lfMaddS d a b := by
    rcases keepsUnits_of_exec_user h hsm with ⟨-, hi⟩ | ⟨hfp, -⟩ | ⟨-, hfp⟩
    exacts [.inr hi, .inl hfp, .inl hfp]
  obtain ⟨u, hu, ⟨pc, ds, rfl⟩ | ⟨e, ea, rfl⟩⟩ := execShape_user (exec_next h) hsm
  · exact ⟨hu.keepsPic, hmac, hfp, fun _ => hu.fpcsr_outside_flags, .inl ⟨hu.keepsSrBut, hu.keepsSaved⟩⟩
  · exact ⟨hu.keepsPic, hmac, hfp, fun _ => hu.fpcsr_outside_flags,
      .inr ⟨e, u.sr, _, hu.entered e ea, hu.keepsSrBut⟩⟩

/-! ### What user mode can read

Two runs of an instruction side by side: the second starts with other contents of the saved registers, PICMR, PICSR and
the sampled lines, of which the last three stay as they are. -/

section hidden

/-- The second machine is the first but for the saved registers, and with PICMR, PICSR and the lines given. -/
def SameToUser (mask status lines : Word) (s s' : State) : Prop :=
  ∃ epcr eear esr, s' = { s with epcr0 := epcr, eear0 := eear, esr0 := esr, picmr := mask, picsr := status,
                                 irqLines := lines }

/-- Where the first run has a next state the second has one that is the same to the user. -/
def SameOutcome (mask status lines : Word) (r r' : Result) : Prop :=
  ∀ t, r = .next t → ∃ t', r' = .next t' ∧ SameToUser mask status lines t t'

variable {mask status lines : Word} {s s' u u' : State}

section reads

variable (h : SameToUser mask status lines s s')

include h

theorem SameToUser.cfg : s'.cfg = s.cfg := by
  obtain ⟨_, _, _, rfl⟩ := h; rfl

theorem SameToUser.pc : s'.pc = s.pc := by
  obtain ⟨_, _, _, rfl⟩ := h; rfl

theorem SameToUser.fpcsr : s'.fpcsr = s.fpcsr := by
  obtain ⟨_, _, _, rfl⟩ := h; rfl

theorem SameToUser.draws : s'.draws = s.draws := by
  obtain ⟨_, _, _, rfl⟩ := h; rfl

theorem SameToUser.readGpr (r : RegNum) : s'.readGpr r = s.readGpr r := by
  obtain ⟨_, _, _, rfl⟩ := h; rfl

theorem SameToUser.flag (f : SrField) : s'.flag f = s.flag f := by
  obtain ⟨_, _, _, rfl⟩ := h; rfl

theorem SameToUser.inDelaySlot : s'.inDelaySlot = s.inDelaySlot := by
  obtain ⟨_, _, _, rfl⟩ := h; rfl

theorem SameToUser.accumulator : s'.accumulator = s.accumulator := by
  obtain ⟨_, _, _, rfl⟩ := h; rfl

end reads

theorem SameToUser.writeGpr (h : SameToUser mask status lines s s') (d : RegNum) (v : Word) :
    SameToUser mask status lines (s.writeGpr d v) (s'.writeGpr d v) := by
  obtain ⟨_, _, _, rfl⟩ := h; exact ⟨_, _, _, rfl⟩

theorem SameToUser.setCarryOverflow (h : SameToUser mask status lines s s') (cy ov : Bool) :
    SameToUser mask status lines (s.setCarryOverflow cy ov) (s'.setCarryOverflow cy ov) := by
  obtain ⟨_, _, _, rfl⟩ := h; exact ⟨_, _, _, rfl⟩

theorem SameToUser.afterDraw (h : SameToUser mask status lines s s') :
    SameToUser mask status lines s.afterDraw s'.afterDraw := by
  obtain ⟨_, _, _, rfl⟩ := h; exact ⟨_, _, _, rfl⟩

theorem SameToUser.setAccumulator (h : SameToUser mask status lines s s') (acc : BitVec 64) :
    SameToUser mask status lines (s.setAccumulator acc) (s'.setAccumulator acc) := by
  obtain ⟨_, _, _, rfl⟩ := h; exact ⟨_, _, _, rfl⟩

theorem SameToUser.writeFloat (h : SameToUser mask status lines s s') (d : RegNum) (v : Word) (flags : FpFlags) :
    SameToUser mask status lines (s.writeFloat d v flags) (s'.writeFloat d v flags) := by
  obtain ⟨_, _, _, rfl⟩ := h; exact ⟨_, _, _, rfl⟩

/-- Trap entry writes the saved registers and reads none of them but EEAR0, which it keeps there (60 R224). -/
theorem SameToUser.takeException (h : SameToUser mask status lines s s') (e : Exception) (ea : Option Word) :
    SameToUser mask status lines (s.takeException e ea) (s'.takeException e ea) := by
  obtain ⟨epcr, eear, esr, rfl⟩ := h
  exact ⟨s.exceptionPc e, ea.getD eear, s.sr, rfl⟩

theorem SameOutcome.next (h : SameToUser mask status lines s s') :
    SameOutcome mask status lines (.next s) (.next s') := by
  rintro t ⟨⟩
  exact ⟨s', rfl, h⟩

/-- Nothing is asked of the second run where the first has no next state. -/
theorem SameOutcome.of_ne_next {r r' : Result} (h : ∀ t, r ≠ .next t) : SameOutcome mask status lines r r' :=
  fun t ht => absurd ht (h t)

theorem SameOutcome.of_refused (r : Refusal) (k : Result) : SameOutcome mask status lines (.refused r) k := by
  rintro t ⟨⟩

theorem SameOutcome.advance (h : SameToUser mask status lines s s') :
    SameOutcome mask status lines s.advance s'.advance := by
  obtain ⟨epcr, eear, esr, rfl⟩ := h
  intro t ht
  obtain ⟨hgo, rfl⟩ := (advance_next_iff _ _).mp ht
  exact ⟨_, (advance_next_iff _ _).mpr ⟨hgo, rfl⟩, epcr, eear, esr, rfl⟩

theorem SameOutcome.armDelaySlot (h : SameToUser mask status lines s s') (target : Word) :
    SameOutcome mask status lines (s.armDelaySlot target) (s'.armDelaySlot target) := by
  obtain ⟨epcr, eear, esr, rfl⟩ := h
  intro t ht
  obtain ⟨hwrap, rfl⟩ := (armDelaySlot_next_iff _ _ _).mp ht
  exact ⟨_, (armDelaySlot_next_iff _ _ _).mpr ⟨hwrap, rfl⟩, epcr, eear, esr, rfl⟩

theorem SameOutcome.ite {p : Prop} [Decidable p] {r r' k k' : Result} (hr : SameOutcome mask status lines r r')
    (hk : SameOutcome mask status lines k k') :
    SameOutcome mask status lines (if p then r else k) (if p then r' else k') := by
  split
  · exact hr
  · exact hk

theorem SameOutcome.outsideDelaySlot (h : SameToUser mask status lines s s') {k k' : Result}
    (hk : SameOutcome mask status lines k k') :
    SameOutcome mask status lines (s.outsideDelaySlot k) (s'.outsideDelaySlot k') := by
  simp only [State.outsideDelaySlot, h.inDelaySlot]
  exact .ite (.of_refused _ _) hk

theorem SameOutcome.ifCompanion (h : SameToUser mask status lines s s') {k k' : Result}
    (hk : SameOutcome mask status lines k k') :
    SameOutcome mask status lines (s.ifCompanion k) (s'.ifCompanion k') := by
  simp only [State.ifCompanion, h.cfg]
  exact .ite hk (.of_refused _ _)

theorem SameOutcome.raiseAlign (h : SameToUser mask status lines s s') (target : Word) :
    SameOutcome mask status lines (s.raiseAlign target) (s'.raiseAlign target) := by
  simp only [State.raiseAlign, State.drawn, h.cfg, h.draws]
  split
  · exact .next (h.takeException _ _)
  · exact .next (h.afterDraw.takeException _ _)

/-- The common end of the arithmetic: whether it takes the Range exception is for SR and the parameters to say, which
are the same in both runs (40 R105). -/
theorem SameOutcome.finishArith (h : SameToUser mask status lines s s') (hu : SameToUser mask status lines u u')
    (d : RegNum) (v : Word) (cy ov trap : Bool) :
    SameOutcome mask status lines (s.finishArith u d v cy ov trap) (s'.finishArith u' d v cy ov trap) := by
  have hwritten := (hu.writeGpr d v).setCarryOverflow cy ov
  simp only [State.finishArith, h.cfg, h.flag]
  refine .ite (.next ?_) (.advance hwritten)
  split
  · exact hwritten.takeException .range none
  · exact h.takeException .range none

theorem SameOutcome.mulInto (h : SameToUser mask status lines s s') (d : RegNum) (x y : Word) :
    SameOutcome mask status lines (s.mulInto d x y) (s'.mulInto d x y) := by
  simp only [State.mulInto, State.drawn, h.cfg, h.draws]
  split
  · exact .finishArith h h _ _ _ _ _
  · exact .finishArith h h.afterDraw _ _ _ _ _

theorem SameOutcome.divInto (h : SameToUser mask status lines s s') (d : RegNum) (y quotient : Word) (isOpen : Bool) :
    SameOutcome mask status lines (s.divInto d y quotient isOpen) (s'.divInto d y quotient isOpen) := by
  simp only [State.divInto, State.drawn, h.draws]
  exact .ite (.finishArith h h.afterDraw _ _ _ _ _) (.finishArith h h _ _ _ _ _)

/-- In user mode the two runs stay side by side: the operands are the same in both, and the privileged instructions, the
only ones that read a hidden register, are refused (45 R207). -/
theorem sameOutcome_exec_user (h : SameToUser mask status lines s s') (hsm : s.flag .SM = false) (i : Instr) :
    SameOutcome mask status lines (exec i s) (exec i s') := by
  cases i with
  | add | addc | addi | addic =>
    simp only [exec, execAdd, execAddc, execAddi, execAddic, State.addInto, h.readGpr, h.flag]
    exact .finishArith h h _ _ _ _ _
  | mulu =>
    simp only [exec, execMulu, h.readGpr]
    exact .finishArith h h _ _ _ _ _
  | mul | muli =>
    simp only [exec, execMul, execMuli, h.readGpr]
    exact .mulInto h _ _ _
  | div | divu =>
    simp only [exec, execDiv, execDivu, h.readGpr]
    exact .divInto h _ _ _ _
  | ff1 | fl1 | xori =>
    simp only [exec, execFf1, execFl1, execXori, h.readGpr, h.cfg]
    exact .advance (h.writeGpr _ _)
  | andi | ori =>
    simp only [exec, execAndi, execOri, h.readGpr]
    exact .ifCompanion h (.advance (h.writeGpr _ _))
  | maci =>
    simp only [exec, execMaci, h.readGpr, h.cfg, h.accumulator]
    exact .ite (.advance (h.setAccumulator _)) (.of_refused _ _)
  | lfMaddS =>
    simp only [exec, execLfMaddS, State.roundingMode, State.fpExceptionsEnabled, h.readGpr, h.cfg, h.fpcsr]
    have hwritten := h.writeFloat
    simp only [State.writeFloat, h.fpcsr] at hwritten
    exact .ite (.ite (.next ((hwritten _ _ _).takeException _ _)) (.advance (hwritten _ _ _))) (.of_refused _ _)
  | lfMaddD => exact .of_refused _ _
  | jr =>
    simp only [exec, execJr, h.readGpr]
    exact .outsideDelaySlot h (.ite (.armDelaySlot h _) (.raiseAlign h _))
  | jalr =>
    simp only [exec, execJalr, h.readGpr, h.pc]
    exact .outsideDelaySlot h (.ite (.next (h.takeException _ _))
      (.ite (.armDelaySlot (h.writeGpr _ _) _) (.raiseAlign h _)))
  | rfe | mfspr | mtspr => exact .of_ne_next (privileged_ne_next hsm _)

end hidden

/-- Settles O24: the second run starts the same to the user, so it ends the same to the user. -/
theorem userModeCannotReadSupervisorState : Obligations.UserModeCannotReadSupervisorState := by
  intro i s t epcr eear esr mask status lines hsm h
  obtain ⟨_, hexec, epcr', eear', esr', rfl⟩ :=
    sameOutcome_exec_user (mask := mask) (status := status) (lines := lines) ⟨epcr, eear, esr, rfl⟩ hsm i t h
  exact ⟨epcr', eear', esr', hexec⟩

end Sys2Proof.Machine
end

section
/-! SUPPORT AND PROOFS. The family of 70_reset_and_hazards.md: where a step faults, and that the run ends at `halt_addr`
and nowhere else. -/

namespace Sys2Proof.Machine

/-! ### Where a step faults -/

theorem atHalt_iff (s : State) : s.atHalt = true ↔ s.cfg.haltAddr = some s.pc := by
  simp [State.atHalt]

/-- A step that takes no interrupt ends the run where it is at `halt_addr`: nothing is fetched. -/
theorem step_of_atHalt {s : State} (hi : s.sample.interruptTaken = false) (hh : s.sample.atHalt = true) :
    step s = .fault .runEnded := by
  simp [step, hi, hh]

/-- A fetch that has no word is stuck or misaligned (20 R62, R64); it never ends the run. -/
theorem fetch_error {s : State} {f : Fault} (h : s.fetch = .error f) :
    f = .fetchUnmapped s.pc ∨ f = .fetchMisaligned s.pc := by
  rw [State.fetch] at h
  split at h
  · split at h
    · cases h
    · cases h
      exact .inl rfl
  · cases h
    exact .inr rfl

/-- A step that faults takes no interrupt, and its fault is the end of the run at `halt_addr` or else its fetch's: no
refused word and no instruction ends in one (10 R26). -/
theorem step_fault {s : State} {f : Fault} (h : step s = .fault f) :
    s.sample.interruptTaken = false ∧
      (s.sample.atHalt = true ∧ f = .runEnded ∨ s.sample.atHalt = false ∧ s.sample.fetch = .error f) := by
  cases hi : s.sample.interruptTaken with
  | true =>
    rw [step_of_interruptTaken hi] at h
    cases h
  | false =>
    refine ⟨rfl, ?_⟩
    cases hh : s.sample.atHalt with
    | true =>
      rw [step_of_atHalt hi hh] at h
      cases h
      exact .inl ⟨rfl, rfl⟩
    | false =>
      refine .inr ⟨rfl, ?_⟩
      cases hw : s.sample.fetch with
      | error g =>
        rw [step_of_fetch_error hi hh hw] at h
        cases h
        rfl
      | ok w =>
        cases hd : s.sample.decodeWord w with
        | error r =>
          rw [step_of_decodeWord_error hi hh hw hd] at h
          cases h
        | ok i =>
          rw [step_of_decoded hi hh hw hd] at h
          exact absurd h (exec_ne_fault i s.sample f)

/-! ### The end of a run -/

/-- The run ends exactly at `halt_addr` with no interrupt taken: the step's one other fault is its fetch's, which is not
the end of the run; and the sampling moves neither `pc` nor the parameters. -/
theorem step_runEnded_iff (s : State) :
    step s = .fault .runEnded ↔ s.sample.interruptTaken = false ∧ s.cfg.haltAddr = some s.pc := by
  constructor
  · intro h
    obtain ⟨hi, ⟨hh, -⟩ | ⟨-, hf⟩⟩ := step_fault h
    · exact ⟨hi, (atHalt_iff s.sample).mp hh⟩
    · rcases fetch_error hf with hne | hne <;> cases hne
  · rintro ⟨hi, hhalt⟩
    exact step_of_atHalt hi ((atHalt_iff s.sample).mpr hhalt)

/-- Settles O13: with no `halt_addr` there is no address for `pc` to be at. -/
theorem runEndsExactlyAtHaltAddr : Obligations.RunEndsExactlyAtHaltAddr := by
  refine fun s => ⟨step_runEnded_iff s, fun hnone hend => ?_⟩
  obtain ⟨-, hhalt⟩ := (step_runEnded_iff s).mp hend
  rw [hnone] at hhalt
  cases hhalt

end Sys2Proof.Machine
end
